-- ==== Sys2Proof/Word.lean ====
section
/-! DEFINITION. The word types of the LargeUInt ALU: the byte a value is made of, the 32-bit command and host word, the
16-bit scalar, and the two register names of a command field. -/

namespace Sys2Proof

/-- A limb of a value and a character of the text buffer (R1, R71). -/
abbrev Byte := BitVec 8

/-- A command word and a host bus word (CW = 32, R7, R320). -/
abbrev Word := BitVec 32

/-- The content of a scalar register (SW = 16, R7, R35). -/
abbrev Scalar := BitVec 16

/-- The name of a value register V0..V15 (NV = 16, R31); every 4-bit field value names one (R106). -/
abbrev VIdx := Fin 16

/-- The name of a scalar register S0..S15 (NS = 16, R35); every 4-bit field value names one (R106). -/
abbrev SIdx := Fin 16

end Sys2Proof
end

