-- ==== Sys2Proof/Syntax.lean ====
section
/-! DEFINITION. The commands of LUA1 (R107): one constructor for each row of the opcode table, its operands in the order of
the word's fields A, B, C, D, X, K, Y (R101). A register field is a register name; an immediate is a number, bounded by
`Instr.wellFormed`. -/

namespace Sys2Proof

/-- One LUA1 command (R107). -/
inductive Instr where
  | halt
  | init (a : VIdx) (n : Nat)
  | grow (a : VIdx)
  | trim (a : VIdx)
  | setb (a : VIdx) (k y : Nat)
  | getb (a : VIdx) (b : SIdx) (y : Nat)
  | numb (a : VIdx) (b : SIdx)
  | store (a : VIdx) (b : SIdx) (x y : Nat)
  | b10st (a : VIdx) (b : SIdx) (x y : Nat)
  | load (a : VIdx) (b : SIdx) (x y : Nat)
  | bufsz (a : VIdx) (b : SIdx)
  | cmp (a : VIdx) (b : SIdx) (c : VIdx)
  | lt (a : VIdx) (b : SIdx) (c : VIdx)
  | le (a : VIdx) (b : SIdx) (c : VIdx)
  | eq (a : VIdx) (b : SIdx) (c : VIdx)
  | clone (a c : VIdx)
  | add (a c : VIdx)
  | addb (a : VIdx) (y : Nat)
  | inc (a : VIdx)
  | bshi (a : VIdx)
  | bshd (a : VIdx) (b : SIdx)
  | mbshi (a : VIdx) (y : Nat)
  | mbshd (a : VIdx) (y : Nat)
  | sub (a c : VIdx)
  | dec (a : VIdx)
  | mul (a c : VIdx)
  | div (a b c d : VIdx)
  | mod (b c d : VIdx)
  | sqrt (a c : VIdx)
  deriving DecidableEq, Repr

end Sys2Proof
end

