-- ==== Sys2Proof/WellFormed.lean ====
section
/-! DEFINITION. Which commands a word can carry: an immediate fits its field (X and Y 0..255, K 0..4095; R106, R112). Every
register name is in range by its type. Aliased registers are well formed: they are refused when the command runs (R304). -/

namespace Sys2Proof

/-- An 8-bit immediate X or Y (R106). -/
def fitsByte (n : Nat) : Bool := decide (n < 256)

/-- The 12-bit immediate K of SETB (R105, R106). -/
def fitsK (n : Nat) : Bool := decide (n < 4096)

/-- Every immediate fits its field (R112). -/
def Instr.wellFormed : Instr → Bool
  | .halt => true
  | .init _ n => fitsByte n
  | .grow _ => true
  | .trim _ => true
  | .setb _ k y => fitsK k && fitsByte y
  | .getb _ _ y => fitsByte y
  | .numb _ _ => true
  | .store _ _ x y => fitsByte x && fitsByte y
  | .b10st _ _ x y => fitsByte x && fitsByte y
  | .load _ _ x y => fitsByte x && fitsByte y
  | .bufsz _ _ => true
  | .cmp _ _ _ => true
  | .lt _ _ _ => true
  | .le _ _ _ => true
  | .eq _ _ _ => true
  | .clone _ _ => true
  | .add _ _ => true
  | .addb _ y => fitsByte y
  | .inc _ => true
  | .bshi _ => true
  | .bshd _ _ => true
  | .mbshi _ y => fitsByte y
  | .mbshd _ y => fitsByte y
  | .sub _ _ => true
  | .dec _ => true
  | .mul _ _ => true
  | .div _ _ _ _ => true
  | .mod _ _ _ => true
  | .sqrt _ _ => true

end Sys2Proof
end

