-- ==== Sys2Proof/Decode.lean ====
section
/-! DEFINITION. The command encoding: the fields of a word (R101), the opcode table (R107), the decoder it defines (R110),
total on every 32-bit word and refusing a word that no row matches (R108, R109), and the encoder written from the formats
N, R, I and S (R102 to R105). -/

namespace Sys2Proof

/-- Field A, w[23:20] (R101). -/
def fieldA (w : Word) : Fin 16 := (w.extractLsb' 20 4).toFin

/-- Field B, w[19:16] (R101). -/
def fieldB (w : Word) : Fin 16 := (w.extractLsb' 16 4).toFin

/-- Field C, w[15:12] (R101). -/
def fieldC (w : Word) : Fin 16 := (w.extractLsb' 12 4).toFin

/-- Field D, w[11:8] (R101). -/
def fieldD (w : Word) : Fin 16 := (w.extractLsb' 8 4).toFin

/-- Field X, w[15:8] (R101). -/
def fieldX (w : Word) : Nat := (w.extractLsb' 8 8).toNat

/-- Field Y, w[7:0] (R101). -/
def fieldY (w : Word) : Nat := (w.extractLsb' 0 8).toNat

/-- Field K, w[19:8] (R101). -/
def fieldK (w : Word) : Nat := (w.extractLsb' 8 12).toNat

/-- The opcode, w[31:24] (R100). -/
def opcodeOf (w : Word) : Nat := (w.extractLsb' 24 8).toNat

/-- One row of the opcode table of R107: it selects a word w when w & mask = pattern, and builds the command from w's fields. -/
structure Row where
  mnemonic : String
  pattern  : Word
  mask     : Word
  build    : Word → Instr

/-- The sequencer and storage rows (R107). -/
def rowsStorage : List Row :=
  [ ⟨"HALT", 0x01000000, 0xFFFFFFFF, fun _ => .halt⟩
  , ⟨"INIT", 0x10000000, 0xFF0FFF00, fun w => .init (fieldA w) (fieldY w)⟩
  , ⟨"GROW", 0x11000000, 0xFF0FFFFF, fun w => .grow (fieldA w)⟩
  , ⟨"TRIM", 0x12000000, 0xFF0FFFFF, fun w => .trim (fieldA w)⟩
  , ⟨"SETB", 0x13000000, 0xFF000000, fun w => .setb (fieldA w) (fieldK w) (fieldY w)⟩
  , ⟨"GETB", 0x14000000, 0xFF00FF00, fun w => .getb (fieldA w) (fieldB w) (fieldY w)⟩
  , ⟨"NUMB", 0x15000000, 0xFF00FFFF, fun w => .numb (fieldA w) (fieldB w)⟩ ]

/-- The text codec rows (R107). -/
def rowsCodec : List Row :=
  [ ⟨"STORE", 0x20000000, 0xFF000000, fun w => .store (fieldA w) (fieldB w) (fieldX w) (fieldY w)⟩
  , ⟨"B10ST", 0x21000000, 0xFF000000, fun w => .b10st (fieldA w) (fieldB w) (fieldX w) (fieldY w)⟩
  , ⟨"LOAD", 0x22000000, 0xFF000000, fun w => .load (fieldA w) (fieldB w) (fieldX w) (fieldY w)⟩
  , ⟨"BUFSZ", 0x23000000, 0xFF00FFFF, fun w => .bufsz (fieldA w) (fieldB w)⟩ ]

/-- The ordering rows (R107). -/
def rowsOrdering : List Row :=
  [ ⟨"CMP", 0x30000000, 0xFF000FFF, fun w => .cmp (fieldA w) (fieldB w) (fieldC w)⟩
  , ⟨"LT", 0x31000000, 0xFF000FFF, fun w => .lt (fieldA w) (fieldB w) (fieldC w)⟩
  , ⟨"LE", 0x32000000, 0xFF000FFF, fun w => .le (fieldA w) (fieldB w) (fieldC w)⟩
  , ⟨"EQ", 0x33000000, 0xFF000FFF, fun w => .eq (fieldA w) (fieldB w) (fieldC w)⟩
  , ⟨"CLONE", 0x34000000, 0xFF0F0FFF, fun w => .clone (fieldA w) (fieldC w)⟩ ]

/-- The additive rows (R107). -/
def rowsAdditive : List Row :=
  [ ⟨"ADD", 0x40000000, 0xFF0F0FFF, fun w => .add (fieldA w) (fieldC w)⟩
  , ⟨"ADDB", 0x41000000, 0xFF0FFF00, fun w => .addb (fieldA w) (fieldY w)⟩
  , ⟨"INC", 0x42000000, 0xFF0FFFFF, fun w => .inc (fieldA w)⟩
  , ⟨"BSHI", 0x43000000, 0xFF0FFFFF, fun w => .bshi (fieldA w)⟩
  , ⟨"BSHD", 0x44000000, 0xFF00FFFF, fun w => .bshd (fieldA w) (fieldB w)⟩
  , ⟨"MBSHI", 0x45000000, 0xFF0FFF00, fun w => .mbshi (fieldA w) (fieldY w)⟩
  , ⟨"MBSHD", 0x46000000, 0xFF0FFF00, fun w => .mbshd (fieldA w) (fieldY w)⟩ ]

/-- The subtractive, multiplication, division and square-root rows (R107). -/
def rowsArithmetic : List Row :=
  [ ⟨"SUB", 0x50000000, 0xFF0F0FFF, fun w => .sub (fieldA w) (fieldC w)⟩
  , ⟨"DEC", 0x51000000, 0xFF0FFFFF, fun w => .dec (fieldA w)⟩
  , ⟨"MUL", 0x60000000, 0xFF0F0FFF, fun w => .mul (fieldA w) (fieldC w)⟩
  , ⟨"DIV", 0x70000000, 0xFF0000FF, fun w => .div (fieldA w) (fieldB w) (fieldC w) (fieldD w)⟩
  , ⟨"MOD", 0x71000000, 0xFFF000FF, fun w => .mod (fieldB w) (fieldC w) (fieldD w)⟩
  , ⟨"SQRT", 0x80000000, 0xFF0F0FFF, fun w => .sqrt (fieldA w) (fieldC w)⟩ ]

/-- The opcode table: all 29 commands (R107). -/
def opcodeTable : List Row :=
  rowsStorage ++ rowsCodec ++ rowsOrdering ++ rowsAdditive ++ rowsArithmetic

/-- A row selects a word when w & mask = match (R107). -/
def Row.selects (r : Row) (w : Word) : Bool := w &&& r.mask == r.pattern

/-- The command a word is, or none where the word is illegal (R108, R109, R110). -/
def decode (w : Word) : Option Instr :=
  (opcodeTable.find? (fun r => r.selects w)).map (fun r => r.build w)

/-- A number placed at bit `lo` of a word. -/
def placed (n lo : Nat) : Word := BitVec.ofNat 32 n <<< lo

/-- Format N: the opcode alone (R102). -/
def formatN (op : Nat) : Word := placed op 24

/-- Format R: four register fields, w[7:0] zero (R103). -/
def formatR (op : Nat) (a b c d : Fin 16) : Word :=
  placed op 24 ||| placed a 20 ||| placed b 16 ||| placed c 12 ||| placed d 8

/-- Format I: two register fields and the immediates X and Y (R104). -/
def formatI (op : Nat) (a b : Fin 16) (x y : Nat) : Word :=
  placed op 24 ||| placed a 20 ||| placed b 16 ||| placed x 8 ||| placed y 0

/-- Format S: a register field and the immediates K and Y (R105). -/
def formatS (op : Nat) (a : Fin 16) (k y : Nat) : Word :=
  placed op 24 ||| placed a 20 ||| placed k 8 ||| placed y 0

/-- The word of a well-formed command: its format and opcode, unused fields zero (R102 to R105, R107). -/
def encode : Instr → Word
  | .halt => formatN 0x01
  | .init a n => formatI 0x10 a 0 0 n
  | .grow a => formatR 0x11 a 0 0 0
  | .trim a => formatR 0x12 a 0 0 0
  | .setb a k y => formatS 0x13 a k y
  | .getb a b y => formatI 0x14 a b 0 y
  | .numb a b => formatR 0x15 a b 0 0
  | .store a b x y => formatI 0x20 a b x y
  | .b10st a b x y => formatI 0x21 a b x y
  | .load a b x y => formatI 0x22 a b x y
  | .bufsz a b => formatR 0x23 a b 0 0
  | .cmp a b c => formatR 0x30 a b c 0
  | .lt a b c => formatR 0x31 a b c 0
  | .le a b c => formatR 0x32 a b c 0
  | .eq a b c => formatR 0x33 a b c 0
  | .clone a c => formatR 0x34 a 0 c 0
  | .add a c => formatR 0x40 a 0 c 0
  | .addb a y => formatI 0x41 a 0 0 y
  | .inc a => formatR 0x42 a 0 0 0
  | .bshi a => formatR 0x43 a 0 0 0
  | .bshd a b => formatR 0x44 a b 0 0
  | .mbshi a y => formatI 0x45 a 0 0 y
  | .mbshd a y => formatI 0x46 a 0 0 y
  | .sub a c => formatR 0x50 a 0 c 0
  | .dec a => formatR 0x51 a 0 0 0
  | .mul a c => formatR 0x60 a 0 c 0
  | .div a b c d => formatR 0x70 a b c d
  | .mod b c d => formatR 0x71 0 b c d
  | .sqrt a c => formatR 0x80 a 0 c 0

/-- The command the decoder reads from a table word of `nbits` bits: a command is one 32-bit word, numbered as the table
numbers it, so the bits above `nbits` are zero (R100, R110). -/
def decodeTableWord (nbits w : Nat) : Option Instr := decode (BitVec.ofNat 32 (w % 2 ^ nbits))

end Sys2Proof
end

