-- ==== Sys2Proof/Config.lean ====
section
/-! DEFINITION. The implementation parameters (R7) and the values the spec leaves free: what CM and TB hold where nothing
has been written since their last draw, what a host read returns while RUNNING, and where the block is placed on the host's
bus. A free value is an opaque constant with no body, so no proof can lean on what it is. -/

namespace Sys2Proof.Config

/-- CAP, the capacity of one value register in bytes (R7). -/
def cap : Nat := 30

/-- LW, the width of the length field of a value register in bits, enough for 0..CAP (R7, R31). -/
def lw : Nat := 7

/-- CMSIZE, the command memory size in 32-bit words (R7). -/
def cmSize : Nat := 256

/-- TBSIZE, the text buffer size in bytes (R7). -/
def tbSize : Nat := 256

/-- HOST_BASE, where the platform places the host register block: a parameter the spec leaves open (R320, D8). -/
opaque hostBase : Nat

/-- `drawnWord draw k` is the unspecified 32-bit word CM index `k` holds, for one draw of all of CM (R43, R73, R340). -/
opaque drawnWord : Nat → Nat → Word

/-- `drawnByte draw a` is the unspecified byte TB address `a` holds, for one draw of all of TB (R43, R73, R340, R341). -/
opaque drawnByte : Nat → Nat → Byte

/-- `drawnRead draw` is the unspecified word one host read of PC, S, CM or TB returns while RUNNING (R330). -/
opaque drawnRead : Nat → Word

end Sys2Proof.Config
end

