-- ==== Sys2Proof/Machine/State.lean ====
section
/-! DEFINITION. The state of the block (R30) as plain data, the two inputs from outside that the model holds beside it (which
agent moves next, the data of the last host read), the numbers of the draws of the free values, and the state right after
power-on reset (R43, R340). -/

namespace Sys2Proof.Machine

/-- A value register (R31): its bytes, least significant first. The length is the number of bytes, so the bytes at and above
the length, which hold zero at all times (R32), need no storage: `VReg.byte` reads them as zero. DESIGN CHOICE, log entry 1. -/
structure VReg where
  bytes : List Byte
  deriving DecidableEq, Repr

/-- A memory as the list of the cells written since its last draw, by rising index. -/
abbrev Memory (α : Type) := List (Nat × α)

/-- STATE, the sequencer state (R38). -/
inductive SeqState where
  | idle | running | halted | faulted
  deriving DecidableEq, Repr

/-- CAUSE, the cause of the last fault (R39, R301). The codes 8..15 are never written, so they have no name. -/
inductive Cause where
  | none
  | capacityExceeded
  | underflow
  | divisionByZero
  | aliasViolation
  | illegalCommand
  | bufferRange
  | fetchRange
  deriving DecidableEq, Repr

/-- Which agent moves next and what it does: the sequencer executes one command (R290), the host reads or writes one 32-bit
word at a bus address (R321), or the block is powered on (R340). DESIGN CHOICE, log entries 3 and 9. -/
inductive Turn where
  | sequencer
  | hostRead (addr : Nat)
  | hostWrite (addr : Nat) (data : Word)
  | powerOn
  deriving DecidableEq, Repr

/-- The whole state. `v`, `sreg`, `pc`, `seq`, `cause`, `cm` and `tb` are the state of R30; the other fields are the
model's own (DESIGN CHOICE, log entries 2, 3, 4 and 5). -/
structure State where
  /-- V0..V15 (R31). -/
  v        : Vector VReg 16
  /-- S0..S15 (R35). -/
  sreg     : Vector Scalar 16
  /-- PC, a command memory word index (R37). -/
  pc       : BitVec 9
  /-- STATE (R38). -/
  seq      : SeqState
  /-- CAUSE (R39). -/
  cause    : Cause
  /-- The CM words written since power-on (R70). -/
  cm       : Memory Word
  /-- Which draw the other CM words come from (R43, R340). -/
  cmDraw   : Nat
  /-- The TB bytes written since TB was last drawn (R71). -/
  tb       : Memory Byte
  /-- Which draw the other TB bytes come from (R43, R340, R341). -/
  tbDraw   : Nat
  /-- The number of the next draw of a free value. -/
  draws    : Nat
  /-- Who moves next, oldest first; when the list is empty the sequencer moves. -/
  turns    : List Turn
  /-- The word the last host read returned. -/
  hostData : Word
  deriving DecidableEq, Repr

/-- What would stop the machine outside its own state: nothing does. Every fault of the spec is a next state with
STATE = FAULTED and a cause code (R300), so this type has no constructor. DEDUCED, log entry 6. -/
inductive Fault where
  deriving DecidableEq, Repr

/-- Why a command has no meaning in the model. -/
inductive Refusal where
  /-- Raised by `exec`'s arm of a command whose meaning is not written yet; safe. No arm raises it now. -/
  | notModelled (mnemonic : String)
  deriving DecidableEq, Repr

/-- The state after power-on reset (R43, R340): every value register the trimmed zero, every scalar register zero, PC 0, IDLE,
no cause, and CM and TB unspecified: nothing listed, each from a draw of its own. -/
def State.reset : State where
  v        := Vector.replicate 16 ⟨[]⟩
  sreg     := Vector.replicate 16 0
  pc       := 0
  seq      := .idle
  cause    := .none
  cm       := []
  cmDraw   := 0
  tb       := []
  tbDraw   := 1
  draws    := 2
  turns    := []
  hostData := 0

end Sys2Proof.Machine
end

