-- ==== Sys2Proof/Machine/Memory.lean ====
section
/-! DEFINITION. The operations over a memory held as the rising list of its written cells (DESIGN CHOICE, log entry 2). -/

namespace Sys2Proof.Machine

/-- What cell `k` holds, or none where nothing has been written since the last draw. -/
def Memory.get? {α : Type} : Memory α → Nat → Option α
  | [], _ => none
  | (j, x) :: rest, k => if j = k then some x else Memory.get? rest k

/-- Write cell `k`, keeping the cells in rising order. -/
def Memory.set {α : Type} : Memory α → Nat → α → Memory α
  | [], k, x => [(k, x)]
  | (j, y) :: rest, k, x =>
    if k < j then (k, x) :: (j, y) :: rest
    else if k = j then (k, x) :: rest
    else (j, y) :: Memory.set rest k x

/-- Write the cells `k`, `k + 1`, … (the MemWrite of R73). -/
def Memory.setAll {α : Type} : Memory α → Nat → List α → Memory α
  | m, _, [] => m
  | m, k, x :: xs => Memory.setAll (Memory.set m k x) (k + 1) xs

/-- The canonical form: the written cells by strictly rising index. A cell nothing has written has no value of its own, so no
written cell can equal it, and equal memories are equal lists. -/
abbrev Memory.wf {α : Type} (m : Memory α) : Prop := m.Pairwise (fun p q => p.1 < q.1)

/-- Every written cell lies below `n`. -/
abbrev Memory.below {α : Type} (n : Nat) (m : Memory α) : Prop := ∀ p ∈ m, p.1 < n

end Sys2Proof.Machine
end

