-- ==== Sys2Proof/Machine/Operands.lean ====
section
/-! DEFINITION. The operand functions of R11 over value registers: value, byte, length, trimmed form, pack, norm, Trim and the
ceiling square root. -/

namespace Sys2Proof.Machine

/-- The length of a register (R31). -/
def VReg.len (r : VReg) : Nat := r.bytes.length

/-- The length field of a register, LW bits (R31): the length itself for every register within CAP. -/
def VReg.lenField (r : VReg) : BitVec Config.lw := BitVec.ofNat Config.lw r.len

/-- Byte `k` of a register: zero at and above the length (R32). -/
def VReg.byte (r : VReg) (k : Nat) : Byte := r.bytes.getD k 0#8

/-- The value of a byte list, least significant byte first (R11, R74). -/
def valOf : List Byte → Nat
  | [] => 0
  | b :: bs => b.toNat + 256 * valOf bs

/-- val(r): the sum of byte k times 256^k over k below the length (R11). -/
def VReg.val (r : VReg) : Nat := valOf r.bytes

/-- trimmed(r): length zero, or a top byte that is not zero (R11). -/
abbrev VReg.trimmed (r : VReg) : Prop := r.len = 0 ∨ r.byte (r.len - 1) ≠ 0

/-- The zero value in trimmed form. -/
def VReg.zero : VReg := ⟨[]⟩

/-- tlen(x): the least L with x < 256^L (R11). -/
def tlen (x : Nat) : Nat := if x = 0 then 0 else Nat.log2 x / 8 + 1

/-- The bytes of pack(x, L): byte k is (x div 256^k) mod 256 for k below L (R11). -/
def packBytes (x len : Nat) : List Byte := (List.range len).map (fun k => BitVec.ofNat 8 (x / 256 ^ k % 256))

/-- pack(x, L) (R11); meant for x < 256^L. -/
def pack (x len : Nat) : VReg := ⟨packBytes x len⟩

/-- norm(x): the trimmed register holding x, or none where x needs more than CAP bytes (R11). -/
def norm (x : Nat) : Option VReg := if Config.cap < tlen x then none else some (pack x (tlen x))

/-- Trim(r): the same value at its trimmed length (R11). -/
def VReg.trim (r : VReg) : VReg := pack r.val (tlen r.val)

/-- Bits `k - 1` down to 0 of the largest m with m·m < x, added to the bits `m` found above them. -/
def sqrtBelow (x : Nat) : Nat → Nat → Nat
  | 0, m => m
  | k + 1, m => if (m + 2 ^ k) * (m + 2 ^ k) < x then sqrtBelow x k (m + 2 ^ k) else sqrtBelow x k m

/-- csqrt(x): the least r with r·r ≥ x (R11): zero for zero, else one more than the largest m with m·m < x. -/
def csqrt (x : Nat) : Nat := if x = 0 then 0 else sqrtBelow x (Nat.log2 x / 2 + 1) 0 + 1

/-- The sum of a register and a number that stands for an operand of length `len`, at the longer length or, on a final carry,
one byte more; none where the grown length exceeds CAP (R200, R201). -/
def VReg.plus (r : VReg) (len y : Nat) : Option VReg :=
  if r.val + y < 256 ^ max r.len len then some (pack (r.val + y) (max r.len len))
  else if Config.cap < max r.len len + 1 then none
  else some (pack (r.val + y) (max r.len len + 1))

/-- Shift up by `n` bytes: no change on a zero value or for n = 0, none where the length would exceed CAP (R203, R205). -/
def VReg.shiftUp (r : VReg) (n : Nat) : Option VReg :=
  if r.val = 0 ∨ n = 0 then some r
  else if Config.cap < r.len + n then none
  else some ⟨List.replicate n 0#8 ++ r.bytes⟩

/-- Shift down by `n` bytes and trim; zero where n reaches the length (R204, R206). -/
def VReg.shiftDown (r : VReg) (n : Nat) : VReg :=
  if r.len ≤ n then VReg.zero else VReg.trim ⟨r.bytes.drop n⟩

end Sys2Proof.Machine
end

