-- ==== Sys2Proof/Machine/Ops.lean ====
section
/-! DEFINITION. The operations every meaning is built from: reading and writing the registers, TB and CM; completing a command;
raising a fault (R300), the one way a command stops the sequencer; and START (R324), which resumes it. The resets are here
too. -/

namespace Sys2Proof.Machine

/-- The outcome of a command or a step. -/
abbrev Result := Host.Outcome State Fault Refusal

/-- V[i] (R10). -/
def State.getV (s : State) (i : VIdx) : VReg := s.v[i.val]

/-- V[i] <- r (R10). -/
def State.setV (s : State) (i : VIdx) (r : VReg) : State := { s with v := s.v.set i.val r i.isLt }

/-- S[i] (R10). -/
def State.getS (s : State) (i : SIdx) : Scalar := s.sreg[i.val]

/-- S[i] <- x (R10). -/
def State.setS (s : State) (i : SIdx) (x : Scalar) : State := { s with sreg := s.sreg.set i.val x i.isLt }

/-- CM[k]: the word last written, or the drawn word where nothing has been written since power-on (R70, R73). -/
def State.cmWord (s : State) (k : Nat) : Word := (Memory.get? s.cm k).getD (Config.drawnWord s.cmDraw k)

/-- CM[k] <- w, a host write (R328). -/
def State.setCm (s : State) (k : Nat) (w : Word) : State := { s with cm := Memory.set s.cm k w }

/-- TB[a]: the byte last written, or the drawn byte where nothing has been written since TB was drawn (R71, R73). -/
def State.tbByte (s : State) (a : Nat) : Byte := (Memory.get? s.tb a).getD (Config.drawnByte s.tbDraw a)

/-- MemRead(a, n) (R73). -/
def State.memRead (s : State) (a n : Nat) : List Byte := (List.range n).map (fun k => s.tbByte (a + k))

/-- MemWrite(a, |t|, t) (R73). -/
def State.memWrite (s : State) (a : Nat) (t : List Byte) : State := { s with tb := Memory.setAll s.tb a t }

/-- pc <- pc + 1, step 6 of R290. -/
def State.advance (s : State) : State := { s with pc := s.pc + 1 }

/-- STATE <- HALTED (R292). -/
def State.halt (s : State) : State := { s with seq := .halted }

/-- Taking a fault (R290, R300, R311): STATE <- FAULTED and CAUSE <- c; nothing else changes, PC stays at the command. -/
def State.enterFault (s : State) (c : Cause) : State := { s with seq := .faulted, cause := c }

/-- START, the way back from a fault (R312, R324): ignored while RUNNING, else CAUSE <- 0 and STATE <- RUNNING at the current
PC. -/
def State.start (s : State) : State := if s.seq = .running then s else { s with seq := .running, cause := .none }

/-- Soft reset (R341, R43): the registers as after power-on, CM kept, TB kept unless the sequencer was RUNNING, when all of it
is drawn afresh (log entry 10). -/
def State.softReset (s : State) : State :=
  let kept : State :=
    { s with v := State.reset.v, sreg := State.reset.sreg, pc := State.reset.pc, seq := State.reset.seq,
             cause := State.reset.cause }
  if s.seq = .running then { kept with tb := [], tbDraw := s.draws, draws := s.draws + 1 } else kept

/-- Power-on reset (R340, R43): the registers as in `State.reset`, CM and TB drawn afresh (log entry 9). -/
def State.powerOn (s : State) : State :=
  { State.reset with cmDraw := s.draws, tbDraw := s.draws + 1, draws := s.draws + 2, turns := s.turns,
                     hostData := s.hostData }

/-- raise Fault(c) (R10, R300). -/
def raise (c : Cause) (s : State) : Result := .next (s.enterFault c)

/-- A command that completes: its writes are in `s`, and the PC moves on (R290 step 6). -/
def complete (s : State) : Result := .next s.advance

/-- V[a] <- r for a result r that may exceed CAP: CAPACITY_EXCEEDED before anything is written (R11, R302). -/
def writeV (a : VIdx) (r : Option VReg) (s : State) : Result :=
  match r with
  | none => raise .capacityExceeded s
  | some r => complete (s.setV a r)

/-- S[b] <- x and complete. -/
def writeS (b : SIdx) (x : Scalar) (s : State) : Result := complete (s.setS b x)

/-- Step 3 of R290: ALIAS_VIOLATION where the register fields coincide (R304). -/
def unlessAlias (p : Prop) [Decidable p] (s : State) (k : Result) : Result :=
  if p then raise .aliasViolation s else k

/-- Step 4 of R290: BUFFER_RANGE where X + Y exceeds TBSIZE (R163, R308). -/
def inBuffer (x y : Nat) (s : State) (k : Result) : Result :=
  if Config.tbSize < x + y then raise .bufferRange s else k

/-- STORE and B10ST of a text t (R166, R167): write it and a terminator when they fit in `cap` bytes, else report 0. -/
def storeText (t : List Byte) (term : Byte) (b : SIdx) (x cap : Nat) (s : State) : Result :=
  if cap < t.length + 1 then writeS b 0x0000 s
  else writeS b 0x0001 (s.memWrite x (t ++ [term]))

/-- The index the next fetch reads, made 0 where PC is outside CM. -/
def State.fetchIndex (s : State) : BitVec 9 := if s.pc.toNat < Config.cmSize then s.pc else 0

/-- A command word placed where the next step fetches, the sequencer started on it and next to move (DESIGN CHOICE, log entry 7). -/
def State.placeCommand (s : State) (w : Word) : State :=
  { s.start with pc := s.fetchIndex, cm := Memory.set s.cm s.fetchIndex.toNat w, turns := [] }

end Sys2Proof.Machine
end

