-- ==== Sys2Proof/Machine/Additive.lean ====
section
/-! DEFINITION. The additive commands ADD, ADDB, INC, BSHI, BSHD, MBSHI and MBSHD (R200 to R206). -/

namespace Sys2Proof.Machine

/-- The length of a byte as a trimmed operand (R201). -/
def byteLen (y : Nat) : Nat := if y = 0 then 0 else 1

/-- ADD: V[A] + V[C] into V[A] (R200). -/
def execAdd (a c : VIdx) (s : State) : Result :=
  unlessAlias (a = c) s (writeV a ((s.getV a).plus (s.getV c).len (s.getV c).val) s)

/-- ADDB: V[A] + Y into V[A] (R201). -/
def execAddb (a : VIdx) (y : Nat) (s : State) : Result := writeV a ((s.getV a).plus (byteLen y) y) s

/-- INC: ADDB of 1 (R202). -/
def execInc (a : VIdx) (s : State) : Result := writeV a ((s.getV a).plus (byteLen 1) 1) s

/-- BSHI: times 256; no change on a zero value (R203). -/
def execBshi (a : VIdx) (s : State) : Result := writeV a ((s.getV a).shiftUp 1) s

/-- BSHD: divided by 256 and trimmed, the byte shifted out into S[B] (R204). -/
def execBshd (a : VIdx) (b : SIdx) (s : State) : Result :=
  writeS b (((s.getV a).byte 0).setWidth 16) (s.setV a ((s.getV a).shiftDown 1))

/-- MBSHI: times 256^n; no change on a zero value or for n = 0 (R205). -/
def execMbshi (a : VIdx) (y : Nat) (s : State) : Result := writeV a ((s.getV a).shiftUp y) s

/-- MBSHD: divided by 256^n and trimmed (R206). -/
def execMbshd (a : VIdx) (y : Nat) (s : State) : Result := complete (s.setV a ((s.getV a).shiftDown y))

end Sys2Proof.Machine
end

