-- ==== Sys2Proof/Machine/Arithmetic.lean ====
section
/-! DEFINITION. The subtractive commands SUB and DEC (R230, R231), MUL (R240), the division commands DIV and MOD (R250, R251)
and SQRT (R270). -/

namespace Sys2Proof.Machine

/-- V[a] <- norm(x − y), UNDERFLOW where the true result is negative (R230, R231, R303). -/
def subtract (a : VIdx) (x y : Nat) (s : State) : Result :=
  if x < y then raise .underflow s else writeV a (norm (x - y)) s

/-- SUB: V[A] − V[C] into V[A] (R230). -/
def execSub (a c : VIdx) (s : State) : Result := unlessAlias (a = c) s (subtract a (s.getV a).val (s.getV c).val s)

/-- DEC: V[A] − 1 into V[A] (R231). -/
def execDec (a : VIdx) (s : State) : Result := subtract a (s.getV a).val 1 s

/-- MUL: V[A] · V[C] into V[A], CAPACITY_EXCEEDED on the true product's length (R240). -/
def execMul (a c : VIdx) (s : State) : Result :=
  unlessAlias (a = c) s (writeV a (norm ((s.getV a).val * (s.getV c).val)) s)

/-- V[a] <- q and V[b] <- r, both computed before either is written (R250, R290). -/
def writeTwo (a b : VIdx) (q r : Option VReg) (s : State) : Result :=
  match q, r with
  | some q, some r => complete ((s.setV a q).setV b r)
  | _, _ => raise .capacityExceeded s

/-- DIVISION_BY_ZERO where the divisor's value is zero (R305). -/
def unlessZero (d : Nat) (s : State) (k : Result) : Result := if d = 0 then raise .divisionByZero s else k

/-- DIV: V[C] div V[D] into V[A] and V[C] mod V[D] into V[B] (R250). -/
def execDiv (a b c d : VIdx) (s : State) : Result :=
  unlessAlias (a = b ∨ a = c ∨ a = d ∨ b = c ∨ b = d) s
    (unlessZero (s.getV d).val s
      (writeTwo a b (norm ((s.getV c).val / (s.getV d).val)) (norm ((s.getV c).val % (s.getV d).val)) s))

/-- MOD: V[C] mod V[D] into V[B] (R251). -/
def execMod (b c d : VIdx) (s : State) : Result :=
  unlessAlias (b = c ∨ b = d) s
    (unlessZero (s.getV d).val s (writeV b (norm ((s.getV c).val % (s.getV d).val)) s))

/-- SQRT: the ceiling square root of V[C] into V[A] (R270). -/
def execSqrt (a c : VIdx) (s : State) : Result := unlessAlias (a = c) s (writeV a (norm (csqrt (s.getV c).val)) s)

end Sys2Proof.Machine
end

