-- ==== Sys2Proof/Machine/Text.lean ====
section
/-! DEFINITION. The text formats: canonical hexadecimal text (R160, R161), the text LOAD accepts (R162) and decimal text (R165),
in ASCII (R12). -/

namespace Sys2Proof.Machine

/-- The terminator STORE and B10ST write (R12, R166). -/
def terminator : Byte := 0x00

/-- The separator (R12, R160). -/
def underscore : Byte := 0x5F

/-- The uppercase hexadecimal digit of a number below 16 (R12). -/
def hexDigit (n : Nat) : Byte := if n < 10 then BitVec.ofNat 8 (0x30 + n) else BitVec.ofNat 8 (0x41 + (n - 10))

/-- hex2(b): two uppercase hexadecimal digits, most significant nibble first (R12). -/
def hex2 (n : Nat) : List Byte := [hexDigit (n / 16), hexDigit (n % 16)]

/-- HEXU: the characters '0'..'9' and 'A'..'F' (R12). -/
def isHexU (c : Byte) : Bool := (0x30 ≤ c.toNat && c.toNat ≤ 0x39) || (0x41 ≤ c.toNat && c.toNat ≤ 0x46)

/-- hexval(c) of a character of HEXU (R12). -/
def hexval (c : Byte) : Nat := if c.toNat ≤ 0x39 then c.toNat - 0x30 else c.toNat - 0x41 + 10

/-- The byte pairs of a value, in ascending index order (R160). -/
def hexPairs (bs : List Byte) : List Byte := bs.flatMap (fun b => hex2 b.toNat)

/-- canon(r), the canonical hex text (R160). -/
def canon (r : VReg) : List Byte := hex2 (r.len % 256) ++ hex2 (r.len / 256) ++ [underscore] ++ hexPairs r.bytes

/-- bsize(r), the canonical text length (R161). -/
def bsize (r : VReg) : Nat := 5 + 2 * r.len

/-- cnt(t), the count a text declares (R162). -/
def cnt (t : List Byte) : Nat :=
  (16 * hexval (t.getD 0 0) + hexval (t.getD 1 0)) + 256 * (16 * hexval (t.getD 2 0) + hexval (t.getD 3 0))

/-- valid(t) (R162). -/
def valid (t : List Byte) : Bool :=
  decide (5 ≤ t.length) && (t.take 4).all isHexU && decide (t.getD 4 0 = underscore)
    && decide (t.length = 5 + 2 * cnt t) && (t.drop 5).all isHexU

/-- The bytes a run of hexadecimal digit pairs stands for (R168). -/
def pairBytes : List Byte → List Byte
  | h :: l :: rest => BitVec.ofNat 8 (16 * hexval h + hexval l) :: pairBytes rest
  | _ => []

/-- The pair a valid text stands for, before LOAD trims it (R168). -/
def parsed (t : List Byte) : VReg := ⟨pairBytes (t.drop 5)⟩

/-- The decimal digits of x in front of `acc`, for a fuel that is at least the number of digits. -/
def decDigits : Nat → Nat → List Byte → List Byte
  | 0, _, acc => acc
  | fuel + 1, x, acc =>
    if x < 10 then BitVec.ofNat 8 (0x30 + x) :: acc
    else decDigits fuel (x / 10) (BitVec.ofNat 8 (0x30 + x % 10) :: acc)

/-- dec(x): the decimal digits, most significant first, no leading zeros, "0" for zero (R12, R165). A number has no more
decimal digits than binary ones, which is the fuel. -/
def dec (x : Nat) : List Byte := decDigits (Nat.log2 x + 1) x []

end Sys2Proof.Machine
end

