-- ==== Sys2Proof/Machine/Codec.lean ====
section
/-! DEFINITION. The text codec commands STORE, B10ST, LOAD and BUFSZ (R160 to R169). -/

namespace Sys2Proof.Machine

/-- STORE: the canonical hex text and a terminator, when they fit (R166). -/
def execStore (a : VIdx) (b : SIdx) (x y : Nat) (s : State) : Result :=
  inBuffer x y s (storeText (canon (s.getV a)) terminator b x y s)

/-- B10ST: the decimal text of the value and a terminator, when they fit (R167). -/
def execB10st (a : VIdx) (b : SIdx) (x y : Nat) (s : State) : Result :=
  inBuffer x y s (storeText (dec (s.getV a).val) terminator b x y s)

/-- LOAD of a text: 0 in S[B] when it is not valid, CAPACITY_EXCEEDED when a valid one declares more than CAP bytes, else the
trimmed value in V[A] and 1 in S[B] (R168, R310). -/
def loadText (t : List Byte) (a : VIdx) (b : SIdx) (s : State) : Result :=
  if valid t = false then writeS b 0x0000 s
  else if Config.cap < cnt t then raise .capacityExceeded s
  else writeS b 0x0001 (s.setV a (parsed t).trim)

/-- LOAD: parse the Y characters at X (R168). -/
def execLoad (a : VIdx) (b : SIdx) (x y : Nat) (s : State) : Result :=
  inBuffer x y s (loadText (s.memRead x y) a b s)

/-- BUFSZ: the canonical text length into S[B] (R169). -/
def execBufsz (a : VIdx) (b : SIdx) (s : State) : Result := writeS b (BitVec.ofNat 16 (bsize (s.getV a))) s

end Sys2Proof.Machine
end

