-- ==== Sys2Proof/Machine/Halt.lean ====
section
/-! DEFINITION. The sequencer command HALT (R292). -/

namespace Sys2Proof.Machine

/-- HALT: STATE <- HALTED, PC unchanged (R292). -/
def execHalt (s : State) : Result := .next s.halt

end Sys2Proof.Machine
end

