-- ==== Sys2Proof/Machine/Flags.lean ====
section
/-! DEFINITION. The comparison results. The block has no flags (R40): a comparison answers a 16-bit word for a scalar register,
with the source's inverted sign (R180). -/

namespace Sys2Proof.Machine

/-- The bytes k − 1 down to 0, most significant first: the first mismatch decides (R180). -/
def compareFrom (a b : VReg) : Nat → Scalar
  | 0 => 0x0000
  | k + 1 =>
    if a.byte k < b.byte k then 0x0001
    else if b.byte k < a.byte k then 0xFFFF
    else compareFrom a b k

/-- compare(a, b) of R180, on the stored pairs: length first, then bytes from the top; 1 if a is smaller, 0xFFFF if a is
larger, 0 if equal. -/
def compare (a b : VReg) : Scalar :=
  if a.len < b.len then 0x0001
  else if b.len < a.len then 0xFFFF
  else compareFrom a b a.len

/-- A truth value as a scalar, 1 or 0 (R181 to R183). -/
def truth (p : Bool) : Scalar := if p then 0x0001 else 0x0000

end Sys2Proof.Machine
end

