-- ==== Sys2Proof/Machine/Ordering.lean ====
section
/-! DEFINITION. The ordering commands CMP, LT, LE, EQ and CLONE (R180 to R184). -/

namespace Sys2Proof.Machine

/-- CMP: compare V[A] with V[C] into S[B] (R180). -/
def execCmp (a : VIdx) (b : SIdx) (c : VIdx) (s : State) : Result := writeS b (compare (s.getV a) (s.getV c)) s

/-- LT: 1 when CMP gives 0x0001, else 0 (R181). -/
def execLt (a : VIdx) (b : SIdx) (c : VIdx) (s : State) : Result :=
  writeS b (truth (decide (compare (s.getV a) (s.getV c) = 0x0001))) s

/-- LE: 1 unless CMP gives 0xFFFF, else 0 (R182). -/
def execLe (a : VIdx) (b : SIdx) (c : VIdx) (s : State) : Result :=
  writeS b (truth (decide (compare (s.getV a) (s.getV c) ≠ 0xFFFF))) s

/-- EQ: 1 when CMP gives 0x0000, else 0 (R183). -/
def execEq (a : VIdx) (b : SIdx) (c : VIdx) (s : State) : Result :=
  writeS b (truth (decide (compare (s.getV a) (s.getV c) = 0x0000))) s

/-- CLONE: V[A] <- V[C], the stored pair (R184). -/
def execClone (a c : VIdx) (s : State) : Result := unlessAlias (a = c) s (complete (s.setV a (s.getV c)))

end Sys2Proof.Machine
end

