-- ==== Sys2Proof/Machine/Storage.lean ====
section
/-! DEFINITION. The storage commands INIT, GROW, TRIM, SETB, GETB and NUMB (R140 to R146). -/

namespace Sys2Proof.Machine

/-- INIT: length n, every byte zero; CAPACITY_EXCEEDED when n > CAP (R141). -/
def execInit (a : VIdx) (n : Nat) (s : State) : Result :=
  writeV a (if Config.cap < n then none else some ⟨List.replicate n 0#8⟩) s

/-- GROW: one more byte, zero, at the top; CAPACITY_EXCEEDED at len = CAP (R142). -/
def execGrow (a : VIdx) (s : State) : Result :=
  writeV a (if Config.cap < (s.getV a).len + 1 then none else some ⟨(s.getV a).bytes ++ [0#8]⟩) s

/-- TRIM: the same value at its trimmed length (R143). -/
def execTrim (a : VIdx) (s : State) : Result := complete (s.setV a (s.getV a).trim)

/-- SETB: write one byte when the index is below the length and the value below 256, else nothing (R144). -/
def execSetb (a : VIdx) (k y : Nat) (s : State) : Result :=
  if y < (s.getV a).len ∧ k ≤ 255 then complete (s.setV a ⟨(s.getV a).bytes.set y (BitVec.ofNat 8 k)⟩)
  else complete s

/-- GETB: one byte, zero at and above the length, into S[B] (R145). -/
def execGetb (a : VIdx) (b : SIdx) (y : Nat) (s : State) : Result := writeS b (((s.getV a).byte y).setWidth 16) s

/-- NUMB: the stored length field, zero-extended, into S[B] (R146). -/
def execNumb (a : VIdx) (b : SIdx) (s : State) : Result := writeS b ((s.getV a).lenField.setWidth 16) s

end Sys2Proof.Machine
end

