-- ==== Sys2Proof/Machine/Dispatch.lean ====
section
/-! DEFINITION. exec: the meaning of each command, one arm per row of the opcode table (R107, steps 3 to 6 of R290). -/

namespace Sys2Proof.Machine

def exec (i : Instr) (s : State) : Host.Outcome State Fault Refusal :=
  match i with
  | .halt => Sys2Proof.Machine.execHalt s
  | .init a n => Sys2Proof.Machine.execInit a n s
  | .grow a => Sys2Proof.Machine.execGrow a s
  | .trim a => Sys2Proof.Machine.execTrim a s
  | .setb a k y => Sys2Proof.Machine.execSetb a k y s
  | .getb a b y => Sys2Proof.Machine.execGetb a b y s
  | .numb a b => Sys2Proof.Machine.execNumb a b s
  | .store a b x y => Sys2Proof.Machine.execStore a b x y s
  | .b10st a b x y => Sys2Proof.Machine.execB10st a b x y s
  | .load a b x y => Sys2Proof.Machine.execLoad a b x y s
  | .bufsz a b => Sys2Proof.Machine.execBufsz a b s
  | .cmp a b c => Sys2Proof.Machine.execCmp a b c s
  | .lt a b c => Sys2Proof.Machine.execLt a b c s
  | .le a b c => Sys2Proof.Machine.execLe a b c s
  | .eq a b c => Sys2Proof.Machine.execEq a b c s
  | .clone a c => Sys2Proof.Machine.execClone a c s
  | .add a c => Sys2Proof.Machine.execAdd a c s
  | .addb a y => Sys2Proof.Machine.execAddb a y s
  | .inc a => Sys2Proof.Machine.execInc a s
  | .bshi a => Sys2Proof.Machine.execBshi a s
  | .bshd a b => Sys2Proof.Machine.execBshd a b s
  | .mbshi a y => Sys2Proof.Machine.execMbshi a y s
  | .mbshd a y => Sys2Proof.Machine.execMbshd a y s
  | .sub a c => Sys2Proof.Machine.execSub a c s
  | .dec a => Sys2Proof.Machine.execDec a s
  | .mul a c => Sys2Proof.Machine.execMul a c s
  | .div a b c d => Sys2Proof.Machine.execDiv a b c d s
  | .mod b c d => Sys2Proof.Machine.execMod b c d s
  | .sqrt a c => Sys2Proof.Machine.execSqrt a c s

end Sys2Proof.Machine
end

