-- ==== Sys2Proof/Machine/HostPort.lean ====
section
/-! DEFINITION. The host register block (R320 to R331): the offset map, reads, writes, and the access of a bus address. -/

namespace Sys2Proof.Machine

/-- What a host offset names (R320). -/
inductive HostReg where
  | id | caps | ctrl | status | cause | pc
  | scalar (i : SIdx)
  | cm (k : Nat)
  | tb (k : Nat)
  | unmapped
  deriving DecidableEq, Repr

/-- The register at a word-aligned offset (R320). -/
def hostRegAligned (o : Nat) : HostReg :=
  if o = 0x0000 then .id
  else if o = 0x0004 then .caps
  else if o = 0x0008 then .ctrl
  else if o = 0x000C then .status
  else if o = 0x0010 then .cause
  else if o = 0x0014 then .pc
  else if 0x0040 ≤ o ∧ o < 0x0040 + 4 * 16 then .scalar (Fin.ofNat 16 ((o - 0x0040) / 4))
  else if 0x1000 ≤ o ∧ o < 0x1000 + 4 * 256 then .cm ((o - 0x1000) / 4)
  else if 0x2000 ≤ o ∧ o < 0x2000 + 4 * 64 then .tb ((o - 0x2000) / 4)
  else .unmapped

/-- The register an offset names; bits [1:0] are ignored (R77, R321). -/
def hostReg (offset : Nat) : HostReg := hostRegAligned (offset / 4 * 4)

/-- The ID constant, "LUA1" (R2, R322). -/
def idWord : Word := 0x4C554131

/-- The CAPS constant: CAP and the base-2 logarithms of NV, NS, CMSIZE and TBSIZE (R320, R322). -/
def capsWord : Word :=
  BitVec.ofNat 32 (Config.cap + Nat.log2 16 * 2 ^ 8 + Nat.log2 16 * 2 ^ 12 + Nat.log2 Config.cmSize * 2 ^ 16
    + Nat.log2 Config.tbSize * 2 ^ 20)

/-- The two bits of STATE (R38). -/
def SeqState.code : SeqState → BitVec 2
  | .idle => 0
  | .running => 1
  | .halted => 2
  | .faulted => 3

/-- The four bits of CAUSE (R301). -/
def Cause.code : Cause → BitVec 4
  | .none => 0
  | .capacityExceeded => 1
  | .underflow => 2
  | .divisionByZero => 3
  | .aliasViolation => 4
  | .illegalCommand => 5
  | .bufferRange => 6
  | .fetchRange => 7

/-- TB_k: the four bytes at 4k packed little-endian (R76, R329). -/
def State.tbWord (s : State) (k : Nat) : Word :=
  s.tbByte (4 * k + 3) ++ s.tbByte (4 * k + 2) ++ s.tbByte (4 * k + 1) ++ s.tbByte (4 * k)

/-- The four bytes of a word, low byte first (R76, R329). -/
def wordBytes (w : Word) : List Byte :=
  [w.extractLsb' 0 8, w.extractLsb' 8 8, w.extractLsb' 16 8, w.extractLsb' 24 8]

/-- Which registers read as an unspecified word while RUNNING: PC, S_i, CM_k and TB_k (R330). -/
def HostReg.hiddenWhileRunning : HostReg → Bool
  | .id => false
  | .caps => false
  | .ctrl => false
  | .status => false
  | .cause => false
  | .pc => true
  | .scalar _ => true
  | .cm _ => true
  | .tb _ => true
  | .unmapped => false

/-- What a register reads as, apart from rule R330 (R321, R322, R323, R325 to R329). -/
def State.regWord (s : State) : HostReg → Word
  | .id => idWord
  | .caps => capsWord
  | .ctrl => 0
  | .status => s.seq.code.setWidth 32
  | .cause => s.cause.code.setWidth 32
  | .pc => s.pc.setWidth 32
  | .scalar i => (s.getS i).setWidth 32
  | .cm k => s.cmWord k
  | .tb k => s.tbWord k
  | .unmapped => 0

/-- A host read: it changes nothing but the data the host gets back; while RUNNING a hidden register gives a drawn word
(R321, R330). -/
def State.hostReadReg (s : State) (r : HostReg) : State :=
  if r.hiddenWhileRunning && decide (s.seq = .running) then
    { s with hostData := Config.drawnRead s.draws, draws := s.draws + 1 }
  else { s with hostData := s.regWord r }

/-- A write of CTRL: SRST first, then START (R323). -/
def State.writeCtrl (s : State) (data : Word) : State :=
  if data.getLsbD 1 then s.softReset else if data.getLsbD 0 then s.start else s

/-- A write that is ignored while RUNNING (R330). -/
def State.whenStopped (s : State) (t : State) : State := if s.seq = .running then s else t

/-- A host write (R321, R323, R325, R327 to R330). -/
def State.hostWriteReg (s : State) (data : Word) : HostReg → State
  | .id => s
  | .caps => s
  | .ctrl => s.writeCtrl data
  | .status => s
  | .cause => s
  | .pc => s.whenStopped { s with pc := data.setWidth 9 }
  | .scalar _ => s
  | .cm k => s.whenStopped (s.setCm k data)
  | .tb k => s.whenStopped (s.memWrite (4 * k) (wordBytes data))
  | .unmapped => s

/-- The offset of a bus address from HOST_BASE, where it lies at or above it (R320; log entry 8). -/
def hostOffset (addr : Nat) : Option Nat := if Config.hostBase ≤ addr then some (addr - Config.hostBase) else none

/-- A host read of a bus address; one below HOST_BASE does not select the block (DESIGN CHOICE, log entry 8). -/
def State.hostRead (s : State) (addr : Nat) : State :=
  match hostOffset addr with
  | none => s
  | some o => s.hostReadReg (hostReg o)

/-- A host write of a bus address; one below HOST_BASE does not select the block (DESIGN CHOICE, log entry 8). -/
def State.hostWrite (s : State) (addr : Nat) (data : Word) : State :=
  match hostOffset addr with
  | none => s
  | some o => s.hostWriteReg data (hostReg o)

end Sys2Proof.Machine
end

