-- ==== Sys2Proof/Machine/Sequencer.lean ====
section
/-! DEFINITION. The sequencer step (R290): fetch, decode, execute, only while RUNNING. -/

namespace Sys2Proof.Machine

/-- Steps 2 to 6 of R290 on a fetched word: ILLEGAL_COMMAND where it decodes to nothing (R306). -/
def runWord (w : Word) (s : State) : Result :=
  match decode w with
  | none => raise .illegalCommand s
  | some i => exec i s

/-- The sequencer's turn (R290, R38): nothing unless RUNNING; FETCH_RANGE at pc ≥ CMSIZE (R307); else the command at CM[pc]. -/
def sequencerTurn (s : State) : Result :=
  if s.seq ≠ .running then .next s
  else if Config.cmSize ≤ s.pc.toNat then raise .fetchRange s
  else runWord (s.cmWord s.pc.toNat) s

/-- One agent's turn (R6, R81, R340). -/
def takeTurn (t : Turn) (s : State) : Result :=
  match t with
  | .sequencer => sequencerTurn s
  | .hostRead addr => .next (s.hostRead addr)
  | .hostWrite addr data => .next (s.hostWrite addr data)
  | .powerOn => .next s.powerOn

end Sys2Proof.Machine
end

