-- ==== Sys2Proof/Machine/Step.lean ====
section
/-! DEFINITION. step: one turn of the agent that moves next; and where a command word is placed so that the next step runs
it. -/

namespace Sys2Proof.Machine

/-- One step: the oldest turn, or the sequencer's where none is listed (R6, R81, R290). -/
def step (s : State) : Host.Outcome State Fault Refusal :=
  match s.turns with
  | [] => takeTurn .sequencer s
  | t :: ts => takeTurn t { s with turns := ts }

/-- The state whose next step fetches and runs the command word `w` (log entry 7): the word in CM at PC, the sequencer
started, no other agent's turn before it. -/
def State.withFetchWord (s : State) (nbits w : Nat) : State := s.placeCommand (BitVec.ofNat 32 (w % 2 ^ nbits))

end Sys2Proof.Machine
end

