-- ==== Sys2Proof/Machine/Engines.lean ====
section
/-! DEFINITION. The algorithms the spec gives as informative: schoolbook multiplication (R241), restoring bit-serial long division
(R253) and Newton's square-root extractor (R271). The commands are defined by their results; these are stated to give the same
results. -/

namespace Sys2Proof.Machine

/-- One row of schoolbook multiplication: byte `m` against every byte, low byte first, with the running carry (R241). -/
def mulRow (m : Nat) : List Byte → Nat → List Byte
  | [], carry => [BitVec.ofNat 8 carry]
  | b :: bs, carry => BitVec.ofNat 8 (b.toNat * m + carry) :: mulRow m bs ((b.toNat * m + carry) / 256)

/-- Byte-wise addition with carry of two byte lists; the final carry is one more byte. -/
def addRow : List Byte → List Byte → Nat → List Byte
  | [], [], carry => [BitVec.ofNat 8 carry]
  | x :: xs, [], carry => BitVec.ofNat 8 (x.toNat + carry) :: addRow xs [] ((x.toNat + carry) / 256)
  | [], y :: ys, carry => BitVec.ofNat 8 (y.toNat + carry) :: addRow [] ys ((y.toNat + carry) / 256)
  | x :: xs, y :: ys, carry =>
    BitVec.ofNat 8 (x.toNat + y.toNat + carry) :: addRow xs ys ((x.toNat + y.toNat + carry) / 256)

/-- Schoolbook multiplication: the row of each operand byte, added in one byte position further up (R241). -/
def mulEngine : List Byte → List Byte → List Byte
  | [], _ => []
  | m :: ms, acc => addRow (mulRow m.toNat acc 0) (0 :: mulEngine ms acc) 0

/-- The loop of the restoring division engine over bits k − 1 down to 0 of n: partial remainder R and quotient Q (R253). -/
def divLoop (n d : Nat) : Nat → Nat × Nat → Nat × Nat
  | 0, rq => rq
  | k + 1, (r, q) =>
    if d ≤ 2 * r + n / 2 ^ k % 2 then divLoop n d k (2 * r + n / 2 ^ k % 2 - d, 2 * q + 1)
    else divLoop n d k (2 * r + n / 2 ^ k % 2, 2 * q)

/-- The restoring bit-serial division engine over the 8·len bits of the numerator: (quotient, remainder) (R253). -/
def divEngine (num : VReg) (d : Nat) : Nat × Nat :=
  ((divLoop num.val d (8 * num.len) (0, 0)).2, (divLoop num.val d (8 * num.len) (0, 0)).1)

/-- The loop of the square-root extractor, with a bound on its steps (R271). -/
def newtonLoop (n : Nat) : Nat → Nat → Nat
  | 0, x => x
  | fuel + 1, x => if x ≤ (x + n / x) / 2 then x else newtonLoop n fuel ((x + n / x) / 2)

/-- The square-root extractor: Newton's iteration from 256^ceil(len/2) to stabilization, then the upward adjustment (R271).
Each step lowers the estimate, so as many steps as the first estimate are never too few. -/
def sqrtEngine (num : VReg) : Nat :=
  if num.val = 0 then 0
  else
    let start := 256 ^ ((num.len + 1) / 2)
    let root := newtonLoop num.val start start
    if root * root < num.val then root + 1 else root

end Sys2Proof.Machine
end

