-- ==== Sys2Proof/Safety.lean ====
section
/-! DEFINITION. The terms claims are stated in: which registers a command reads and writes (R34, R36), which reach the text
buffer (R71), where fields alias (R304), whose turn it is, and the invariant every step keeps. -/

namespace Sys2Proof

/-- The value registers a command reads (R34). -/
def Instr.vReads : Instr → List VIdx
  | .halt | .init _ _ | .load _ _ _ _ => []
  | .grow a | .trim a | .setb a _ _ | .getb a _ _ | .numb a _ | .store a _ _ _ | .b10st a _ _ _ | .bufsz a _
  | .addb a _ | .inc a | .bshi a | .bshd a _ | .mbshi a _ | .mbshd a _ | .dec a => [a]
  | .cmp a _ c | .lt a _ c | .le a _ c | .eq a _ c | .add a c | .sub a c | .mul a c => [a, c]
  | .clone _ c | .sqrt _ c => [c]
  | .div _ _ c d | .mod _ c d => [c, d]

/-- The value registers a command writes (R34). -/
def Instr.vWrites : Instr → List VIdx
  | .halt | .getb _ _ _ | .numb _ _ | .store _ _ _ _ | .b10st _ _ _ _ | .bufsz _ _ | .cmp _ _ _ | .lt _ _ _
  | .le _ _ _ | .eq _ _ _ => []
  | .init a _ | .grow a | .trim a | .setb a _ _ | .load a _ _ _ | .clone a _ | .add a _ | .addb a _ | .inc a
  | .bshi a | .bshd a _ | .mbshi a _ | .mbshd a _ | .sub a _ | .dec a | .mul a _ | .sqrt a _ => [a]
  | .div a b _ _ => [a, b]
  | .mod b _ _ => [b]

/-- The scalar registers a command writes (R36). -/
def Instr.sWrites : Instr → List SIdx
  | .getb _ b _ | .numb _ b | .store _ b _ _ | .b10st _ b _ _ | .load _ b _ _ | .bufsz _ b | .cmp _ b _ | .lt _ b _
  | .le _ b _ | .eq _ b _ | .bshd _ b => [b]
  | .halt | .init _ _ | .grow _ | .trim _ | .setb _ _ _ | .clone _ _ | .add _ _ | .addb _ _ | .inc _ | .bshi _
  | .mbshi _ _ | .mbshd _ _ | .sub _ _ | .dec _ | .mul _ _ | .div _ _ _ _ | .mod _ _ _ | .sqrt _ _ => []

/-- Whether a command may write the text buffer: STORE and B10ST do (R71). -/
def Instr.writesText : Instr → Bool
  | .store _ _ _ _ | .b10st _ _ _ _ => true
  | _ => false

/-- The alias conditions of R304. -/
def Instr.aliased : Instr → Bool
  | .clone a c | .add a c | .sub a c | .mul a c | .sqrt a c => a == c
  | .div a b c d => a == b || a == c || a == d || b == c || b == d
  | .mod b c d => b == c || b == d
  | _ => false

/-- Whether a command may make a trimmed register untrimmed: INIT, GROW and SETB (R33, R140). -/
def Instr.mayUntrim : Instr → Bool
  | .init _ _ | .grow _ | .setb _ _ _ => true
  | _ => false

namespace Machine

/-- It is the sequencer's turn. -/
def State.sequencerMoves (s : State) : Prop := s.turns = [] ∨ s.turns.head? = some .sequencer

/-- The state with the turn that is being taken removed from the list. -/
def State.afterTurn (s : State) : State := { s with turns := s.turns.tail }

/-- Every value register holds at most CAP bytes (R31). -/
def State.regsFit (s : State) : Prop := ∀ i, (s.getV i).len ≤ Config.cap

/-- Every value register is trimmed. -/
def State.allTrimmed (s : State) : Prop := ∀ i, (s.getV i).trimmed

/-- The invariant: registers within CAP (R31), CM and TB in canonical form and within their sizes (R70, R71), CAUSE set exactly
in FAULTED (R39), and the draws CM and TB come from older than the next draw. -/
structure State.Inv (s : State) : Prop where
  regsFit   : s.regsFit
  cmWf      : Memory.wf s.cm
  cmBelow   : Memory.below Config.cmSize s.cm
  tbWf      : Memory.wf s.tb
  tbBelow   : Memory.below Config.tbSize s.tb
  causeSet  : s.cause ≠ .none ↔ s.seq = .faulted
  cmDrawn   : s.cmDraw < s.draws
  tbDrawn   : s.tbDraw < s.draws

/-- The command raises the fault `c`, writing nothing else (R300, R311). -/
def faultsWith (c : Cause) (i : Instr) (s : State) : Prop := exec i s = .next { s with seq := .faulted, cause := c }

/-- The value a decimal text reads as (R165). -/
def decimalValue (t : List Byte) : Nat := t.foldl (fun n c => 10 * n + (c.toNat - 0x30)) 0

/-- A host read of an offset, taken as the next turn, returns `data` and changes nothing else (R321). -/
def hostReads (s : State) (offset : Nat) (data : Word) : Prop :=
  step { s with turns := [.hostRead (Config.hostBase + offset)] } = .next { s with turns := [], hostData := data }

/-- A host write to an offset, taken as the next turn, leads from `s` to `t` (R321). -/
def hostWrites (s : State) (offset : Nat) (data : Word) (t : State) : Prop :=
  step { s with turns := [.hostWrite (Config.hostBase + offset) data] } = .next { t with turns := [] }

end Machine

end Sys2Proof
end

