-- ==== Sys2Proof/Certificates/Slice0/Obligations.lean ====
section
/-! DEFINITION. The statements for the provers. A next state is written out as a record update of the state before, so each
result statement is also the command's completion and its frame: every field the update does not name is unchanged. -/

open Sys2Proof Sys2Proof.Machine

/-! ### Encoding -/

/-- Decoding the word of a well-formed command gives the command back, every operand at every value its field admits. -/
def Obligations.DecodeOfEncode : Prop := ∀ i : Instr, i.wellFormed = true → decode (encode i) = some i

/-- A word that decodes to a command is the word of that command, which is well formed: no bit of a word is dropped. -/
def Obligations.EncodeOfDecode : Prop :=
  ∀ (w : Word) (i : Instr), decode w = some i → i.wellFormed = true ∧ encode i = w

/-- R110: decode(w) is the unique row with w & mask = match, or ILLEGAL when there is none. -/
def Obligations.DecodeIsTheUniqueMatchingRow : Prop :=
  ∀ w : Word,
    (∀ r ∈ opcodeTable, w &&& r.mask = r.pattern →
      decode w = some (r.build w) ∧ ∀ t ∈ opcodeTable, w &&& t.mask = t.pattern → t = r) ∧
    ((∀ r ∈ opcodeTable, w &&& r.mask ≠ r.pattern) → decode w = none)

/-- R115: the worked encodings. -/
def Obligations.WorkedEncodingsDecode : Prop :=
  decode 0x40102000 = some (.add 1 2) ∧ decode 0x70341200 = some (.div 3 4 1 2) ∧
  decode 0x1300FF00 = some (.setb 0 255 0) ∧ decode 0x20101042 = some (.store 1 0 0x10 66) ∧
  decode 0x01000000 = some .halt

/-! ### The sequencer -/

/-- R290: on the sequencer's turn, RUNNING, with a command at the PC, a step is exec of that command (the turn taken). -/
def Obligations.StepRunsDecodedCommand : Prop :=
  ∀ (s : State) (i : Instr), s.sequencerMoves → s.seq = .running → s.pc.toNat < Config.cmSize →
    decode (s.cmWord s.pc.toNat) = some i → step s = exec i s.afterTurn

/-- R307: a fetch at pc ≥ CMSIZE raises FETCH_RANGE and leaves the PC there; the PC gets there when the command at 255
completes without HALT, or by START with such a PC. -/
def Obligations.FetchOutOfRangeFaults : Prop :=
  (∀ s : State, s.sequencerMoves → s.seq = .running → Config.cmSize ≤ s.pc.toNat →
    step s = .next { s.afterTurn with seq := .faulted, cause := .fetchRange }) ∧
  (∀ (i : Instr) (s t : State), s.seq = .running → s.pc = 255 → exec i s = .next t → t.seq = .running → t.pc = 256) ∧
  (∀ s : State, s.start.pc = s.pc)

/-- R306, R108: a fetched word with an unassigned opcode, or with a non-zero bit in a must-be-zero field, raises
ILLEGAL_COMMAND. -/
def Obligations.IllegalWordFaults : Prop :=
  ∀ s : State, s.sequencerMoves → s.seq = .running → s.pc.toNat < Config.cmSize →
    ((∀ r ∈ opcodeTable, opcodeOf (s.cmWord s.pc.toNat) ≠ opcodeOf r.pattern) →
      step s = .next { s.afterTurn with seq := .faulted, cause := .illegalCommand }) ∧
    (∀ r ∈ opcodeTable, opcodeOf (s.cmWord s.pc.toNat) = opcodeOf r.pattern →
      s.cmWord s.pc.toNat &&& r.mask ≠ r.pattern →
      step s = .next { s.afterTurn with seq := .faulted, cause := .illegalCommand })

/-- R38: the four codes; no sequencer step outside RUNNING; RUNNING is left only by HALT, a fault or a soft reset, and entered
only by START. A power-on reset, which begins the machine anew, is set apart. -/
def Obligations.StateChangesOnlyAsListed : Prop :=
  (SeqState.code .idle = 0 ∧ SeqState.code .running = 1 ∧ SeqState.code .halted = 2 ∧ SeqState.code .faulted = 3) ∧
  (∀ s : State, s.sequencerMoves → s.seq ≠ .running → step s = .next s.afterTurn) ∧
  (∀ s t : State, s.turns.head? ≠ some .powerOn → step s = .next t → s.seq = .running → t.seq ≠ .running →
    (s.sequencerMoves ∧ s.pc.toNat < Config.cmSize ∧ decode (s.cmWord s.pc.toNat) = some .halt ∧ t.seq = .halted) ∨
    (s.sequencerMoves ∧ t.seq = .faulted ∧ t.cause ≠ .none) ∨
    (∃ addr data rest o, s.turns = .hostWrite addr data :: rest ∧ hostOffset addr = some o ∧ hostReg o = .ctrl ∧
      data.getLsbD 1 = true ∧ t.seq = .idle)) ∧
  (∀ s t : State, step s = .next t → s.seq ≠ .running → t.seq = .running →
    ∃ addr data rest o, s.turns = .hostWrite addr data :: rest ∧ hostOffset addr = some o ∧ hostReg o = .ctrl ∧
      data.getLsbD 0 = true ∧ data.getLsbD 1 = false)

/-- Every state has a next state: no command is refused and nothing stops the machine but its own STATE. -/
def Obligations.EveryStepAnswersNext : Prop := ∀ s : State, ∃ t, step s = .next t

/-- A run of the sequencer ends (48_sequencer.md) within CMSIZE + 1 steps. The run is one in which only the sequencer moves: in
the model, one with the empty list of turns (log entry 3). -/
def Obligations.RunEndsWithinCommandMemory : Prop :=
  ∀ s : State, s.turns = [] → s.seq = .running →
    ∃ (k : Nat) (t : State), k ≤ Config.cmSize + 1 ∧ Sys2Proof.core.run k s = .next t ∧ t.seq ≠ .running

/-- A command that completes (10_state.md) advances the PC by one, from 255 to 256; HALT and a faulting command leave it. -/
def Obligations.PcAdvancesOnCompletionOnly : Prop :=
  (∀ (i : Instr) (s t : State), s.seq = .running → exec i s = .next t →
    (t.seq = .running ∧ i ≠ .halt ∧ t.pc = s.pc + 1) ∨ (t.seq = .halted ∧ i = .halt ∧ t.pc = s.pc) ∨
    (t.seq = .faulted ∧ t.pc = s.pc)) ∧
  (∀ (i : Instr) (s t : State), s.seq = .running → s.pc = 255 → exec i s = .next t → t.seq = .running →
    t.pc.toNat = 256)

/-- The invariant holds after power-on reset. Its clauses about draws are the model's own (log entry 4). -/
def Obligations.ResetMeetsInvariant : Prop := State.reset.Inv

/-- Every step, of the sequencer or of the host, keeps the invariant: registers within CAP (R31), CM and TB canonical and
within their sizes (R70, R71), CAUSE set exactly in FAULTED (R39), draws older than the next (the model's own, log entry 4). -/
def Obligations.StepKeepsTheInvariant : Prop := ∀ s t : State, s.Inv → step s = .next t → t.Inv

/-! ### What every command keeps -/

/-- R311: a step that faults changes STATE and CAUSE and nothing else. -/
def Obligations.FaultsArePrecise : Prop :=
  ∀ s t : State, s.sequencerMoves → s.seq = .running → step s = .next t → t.seq = .faulted →
    t = { s.afterTurn with seq := .faulted, cause := t.cause } ∧ t.cause ≠ .none

/-- The frame of every command: only the registers its row of R34 and R36 names may change, TB only by STORE and B10ST, CM
never. -/
def Obligations.CommandsWriteOnlyWhatTheirRowsName : Prop :=
  ∀ (i : Instr) (s t : State), exec i s = .next t →
    (∀ r, r ∉ i.vWrites → t.getV r = s.getV r) ∧ (∀ b, b ∉ i.sWrites → t.getS b = s.getS b) ∧
    (i.writesText = false → ∀ a, t.tbByte a = s.tbByte a) ∧ (∀ k, t.cmWord k = s.cmWord k) ∧
    t.cm = s.cm ∧ t.cmDraw = s.cmDraw ∧ t.tbDraw = s.tbDraw ∧ t.draws = s.draws ∧ t.turns = s.turns ∧
    t.hostData = s.hostData

/-- A value register a command neither reads nor writes does not matter to it. -/
def Obligations.UnreadRegistersDoNotMatter : Prop :=
  ∀ (i : Instr) (s t : State) (r : VIdx) (x : VReg), r ∉ i.vReads → r ∉ i.vWrites → exec i s = .next t →
    exec i (s.setV r x) = .next (t.setV r x)

/-- R33: which commands give trimmed results always, which from trimmed inputs, and that INIT with n > 0, GROW and SETB may
create an untrimmed pair from a trimmed one. -/
def Obligations.TrimmedResults : Prop :=
  (∀ (i : Instr) (s t : State), s.seq = .running → exec i s = .next t → t.seq = .running →
    ((∃ a, i = .trim a) ∨ (∃ a b x y, i = .load a b x y ∧ t.getS b = 1) ∨ (∃ a c, i = .sub a c) ∨ (∃ a, i = .dec a) ∨
      (∃ a c, i = .mul a c) ∨ (∃ a b c d, i = .div a b c d) ∨ (∃ b c d, i = .mod b c d) ∨ (∃ a c, i = .sqrt a c) ∨
      (∃ a b, i = .bshd a b) ∨ (∃ a y, i = .mbshd a y)) →
    ∀ r ∈ i.vWrites, (t.getV r).trimmed) ∧
  (∀ (i : Instr) (s t : State), s.seq = .running → i.wellFormed = true → exec i s = .next t → t.seq = .running →
    ((∃ a c, i = .add a c) ∨ (∃ a y, i = .addb a y) ∨ (∃ a, i = .inc a) ∨ (∃ a, i = .bshi a) ∨ (∃ a y, i = .mbshi a y) ∨
      (∃ a c, i = .clone a c)) →
    (∀ r ∈ i.vReads, (s.getV r).trimmed) → ∀ r ∈ i.vWrites, (t.getV r).trimmed) ∧
  (∀ (s : State) (a : VIdx) (n : Nat), 0 < n → n ≤ Config.cap →
    ∃ t, exec (.init a n) s = .next t ∧ ¬ (t.getV a).trimmed) ∧
  (∃ (s t : State) (a : VIdx), s.allTrimmed ∧ exec (.grow a) s = .next t ∧ ¬ (t.getV a).trimmed) ∧
  (∃ (s t : State) (a : VIdx) (k y : Nat), s.allTrimmed ∧ exec (.setb a k y) s = .next t ∧ ¬ (t.getV a).trimmed)

/-- From trimmed registers, no command but INIT, GROW and SETB makes an untrimmed one (R33, R140). -/
def Obligations.OnlyStorageCommandsUntrim : Prop :=
  ∀ (i : Instr) (s t : State), i.wellFormed = true → i.mayUntrim = false → s.allTrimmed → exec i s = .next t →
    t.allTrimmed

/-! ### Where each fault is raised -/

/-- R304: ALIAS_VIOLATION is raised exactly where the fields meet an alias condition. -/
def Obligations.AliasViolationExactly : Prop :=
  ∀ (i : Instr) (s : State), s.seq = .running → (faultsWith .aliasViolation i s ↔
    ((∃ a c, a = c ∧ (i = .clone a c ∨ i = .add a c ∨ i = .sub a c ∨ i = .mul a c ∨ i = .sqrt a c)) ∨
      (∃ a b c d, i = .div a b c d ∧ (a = b ∨ a = c ∨ a = d ∨ b = c ∨ b = d)) ∨
      (∃ b c d, i = .mod b c d ∧ (b = c ∨ b = d))))

/-- R308: BUFFER_RANGE is raised exactly by STORE, B10ST and LOAD with X + Y > TBSIZE. -/
def Obligations.BufferRangeExactly : Prop :=
  ∀ (i : Instr) (s : State), s.seq = .running → (faultsWith .bufferRange i s ↔
    ∃ a b x y, (i = .store a b x y ∨ i = .b10st a b x y ∨ i = .load a b x y) ∧ Config.tbSize < x + y)

/-- R303: UNDERFLOW is raised exactly by SUB of a larger value and by DEC of zero (the alias check comes before, R310). -/
def Obligations.UnderflowExactly : Prop :=
  ∀ (i : Instr) (s : State), s.seq = .running → (faultsWith .underflow i s ↔
    ((∃ a c, i = .sub a c ∧ a ≠ c ∧ (s.getV a).val < (s.getV c).val) ∨ (∃ a, i = .dec a ∧ (s.getV a).val = 0)))

/-- R305: DIVISION_BY_ZERO is raised exactly by DIV and MOD with a zero divisor (the alias check comes before, R310). -/
def Obligations.DivisionByZeroExactly : Prop :=
  ∀ (i : Instr) (s : State), s.seq = .running → (faultsWith .divisionByZero i s ↔
    ((∃ a b c d, i = .div a b c d ∧ i.aliased = false ∧ (s.getV d).val = 0) ∨
      (∃ b c d, i = .mod b c d ∧ i.aliased = false ∧ (s.getV d).val = 0)))

/-- R302: CAPACITY_EXCEEDED is raised exactly where a result needs more bytes than CAP, by the nine commands named. -/
def Obligations.CapacityExceededExactly : Prop :=
  ∀ (i : Instr) (s : State), s.seq = .running → s.regsFit → i.wellFormed = true → (faultsWith .capacityExceeded i s ↔
    ((∃ a n, i = .init a n ∧ Config.cap < n) ∨
      (∃ a, i = .grow a ∧ (s.getV a).len = Config.cap) ∨
      (∃ a c, i = .add a c ∧ a ≠ c ∧ max (s.getV a).len (s.getV c).len = Config.cap ∧
        256 ^ Config.cap ≤ (s.getV a).val + (s.getV c).val) ∨
      (∃ a y, i = .addb a y ∧ (s.getV a).len = Config.cap ∧ 256 ^ Config.cap ≤ (s.getV a).val + y) ∨
      (∃ a, i = .inc a ∧ (s.getV a).len = Config.cap ∧ 256 ^ Config.cap ≤ (s.getV a).val + 1) ∨
      (∃ a, i = .bshi a ∧ (s.getV a).val ≠ 0 ∧ Config.cap < (s.getV a).len + 1) ∨
      (∃ a y, i = .mbshi a y ∧ (s.getV a).val ≠ 0 ∧ y ≠ 0 ∧ Config.cap < (s.getV a).len + y) ∨
      (∃ a c, i = .mul a c ∧ a ≠ c ∧ 256 ^ Config.cap ≤ (s.getV a).val * (s.getV c).val) ∨
      (∃ a b x y, i = .load a b x y ∧ x + y ≤ Config.tbSize ∧ valid (s.memRead x y) = true ∧
        Config.cap < cnt (s.memRead x y))))

/-! ### The storage commands -/

/-- R292: HALT sets STATE to HALTED and changes nothing else. -/
def Obligations.HaltStopsTheSequencer : Prop := ∀ s : State, exec .halt s = .next { s with seq := .halted }

/-- R141: INIT makes a register of n zero bytes, or faults for n > CAP. -/
def Obligations.InitMakesZeroBytes : Prop :=
  ∀ (a : VIdx) (n : Nat) (s : State),
    (n ≤ Config.cap → ∃ r : VReg, exec (.init a n) s = .next { s with v := s.v.set a.val r, pc := s.pc + 1 } ∧
      r.len = n ∧ ∀ k, r.byte k = 0) ∧
    (Config.cap < n → faultsWith .capacityExceeded (.init a n) s)

/-- R142: GROW adds a zero byte at the top, or faults at CAP. -/
def Obligations.GrowAddsAZeroByte : Prop :=
  ∀ (a : VIdx) (s : State),
    ((s.getV a).len + 1 ≤ Config.cap →
      ∃ r : VReg, exec (.grow a) s = .next { s with v := s.v.set a.val r, pc := s.pc + 1 } ∧
        r.len = (s.getV a).len + 1 ∧ ∀ k, r.byte k = (s.getV a).byte k) ∧
    (Config.cap < (s.getV a).len + 1 → faultsWith .capacityExceeded (.grow a) s)

/-- R143: TRIM keeps the value and leaves the register trimmed; a trimmed register is unchanged. -/
def Obligations.TrimKeepsTheValue : Prop :=
  ∀ (a : VIdx) (s : State),
    (∃ r : VReg, exec (.trim a) s = .next { s with v := s.v.set a.val r, pc := s.pc + 1 } ∧
      r.val = (s.getV a).val ∧ r.trimmed) ∧
    ((s.getV a).trimmed → exec (.trim a) s = .next { s with pc := s.pc + 1 })

/-- R144: SETB writes one byte when index and value are in range, and otherwise only moves on. -/
def Obligations.SetbWritesOneByteOrIgnores : Prop :=
  ∀ (a : VIdx) (k y : Nat) (s : State),
    (y < (s.getV a).len ∧ k ≤ 255 →
      ∃ r : VReg, exec (.setb a k y) s = .next { s with v := s.v.set a.val r, pc := s.pc + 1 } ∧
        r.len = (s.getV a).len ∧ (r.byte y).toNat = k ∧ ∀ j, j ≠ y → r.byte j = (s.getV a).byte j) ∧
    (¬ (y < (s.getV a).len ∧ k ≤ 255) → exec (.setb a k y) s = .next { s with pc := s.pc + 1 })

/-- R145, R146, R169: GETB, NUMB and BUFSZ write a byte, the length and the canonical text length into S[B]. NUMB reads the
length field of R31, which is the length for every register within CAP. -/
def Obligations.AccessorsWriteTheScalar : Prop :=
  ∀ (a : VIdx) (b : SIdx) (y : Nat) (s : State),
    (y < (s.getV a).len → exec (.getb a b y) s =
      .next { s with sreg := s.sreg.set b.val (((s.getV a).byte y).setWidth 16), pc := s.pc + 1 }) ∧
    ((s.getV a).len ≤ y → exec (.getb a b y) s = .next { s with sreg := s.sreg.set b.val 0, pc := s.pc + 1 }) ∧
    (∃ n : Scalar, exec (.numb a b) s = .next { s with sreg := s.sreg.set b.val n, pc := s.pc + 1 } ∧
      n = (s.getV a).lenField.setWidth 16 ∧ ((s.getV a).len ≤ Config.cap → n.toNat = (s.getV a).len)) ∧
    exec (.bufsz a b) s =
      .next { s with sreg := s.sreg.set b.val (BitVec.ofNat 16 (5 + 2 * (s.getV a).len)), pc := s.pc + 1 }

/-! ### The text codec -/

/-- R160, R161: the canonical text: the length, the count low byte first, the separator, the pairs high digit first. -/
def Obligations.CanonicalTextForm : Prop :=
  (∀ n : Fin 16, hexDigit n.val =
    [0x30, 0x31, 0x32, 0x33, 0x34, 0x35, 0x36, 0x37, 0x38, 0x39, 0x41, 0x42, 0x43, 0x44, 0x45, 0x46].getD n.val 0) ∧
  (∀ r : VReg, (canon r).length = 5 + 2 * r.len ∧
    (canon r).take 5 = [hexDigit (r.len % 256 / 16), hexDigit (r.len % 256 % 16), hexDigit (r.len / 256 / 16),
      hexDigit (r.len / 256 % 16), 0x5F] ∧
    (∀ k, k < r.len → (canon r).getD (5 + 2 * k) 0 = hexDigit ((r.byte k).toNat / 16) ∧
      (canon r).getD (6 + 2 * k) 0 = hexDigit ((r.byte k).toNat % 16)) ∧
    (r.len ≤ Config.cap → (canon r).getD 2 0 = 0x30 ∧ (canon r).getD 3 0 = 0x30)) ∧
  canon ⟨[0x0C, 0x63]⟩ = [0x30, 0x32, 0x30, 0x30, 0x5F, 0x30, 0x43, 0x36, 0x33]

/-- R162: the text LOAD accepts, character by character; no decimal text is one. -/
def Obligations.ValidTextGrammar : Prop :=
  (∀ t : List Byte, valid t = true ↔
    5 ≤ t.length ∧
    (∀ k, k < 4 → (0x30 ≤ (t.getD k 0).toNat ∧ (t.getD k 0).toNat ≤ 0x39) ∨
      (0x41 ≤ (t.getD k 0).toNat ∧ (t.getD k 0).toNat ≤ 0x46)) ∧
    t.getD 4 0 = 0x5F ∧
    t.length = 5 + 2 * ((16 * hexval (t.getD 0 0) + hexval (t.getD 1 0)) +
      256 * (16 * hexval (t.getD 2 0) + hexval (t.getD 3 0))) ∧
    (∀ k, 5 ≤ k → k < t.length → (0x30 ≤ (t.getD k 0).toNat ∧ (t.getD k 0).toNat ≤ 0x39) ∨
      (0x41 ≤ (t.getD k 0).toNat ∧ (t.getD k 0).toNat ≤ 0x46))) ∧
  (∀ x : Nat, valid (dec x) = false)

/-- R165: the decimal text is digits that read as the value, with no leading zero, "0" for zero; at most 73 characters. -/
def Obligations.DecimalTextReadsAsTheValue : Prop :=
  (∀ x : Nat, dec x ≠ [] ∧ (∀ c ∈ dec x, 0x30 ≤ c.toNat ∧ c.toNat ≤ 0x39) ∧ decimalValue (dec x) = x ∧
    (0 < x → (dec x).headD 0 ≠ 0x30)) ∧
  dec 0 = [0x30] ∧
  (∀ r : VReg, r.len ≤ Config.cap → 1 ≤ (dec r.val).length ∧ (dec r.val).length ≤ 73)

/-- R166, R167: STORE and B10ST write their text and a terminator at X when they fit in Y bytes, and no other byte of TB; else
report 0; BUFFER_RANGE when the region leaves TB. -/
def Obligations.StoresWriteTextAndTerminator : Prop :=
  ∀ (a : VIdx) (b : SIdx) (x y : Nat) (s : State) (i : Instr) (t : List Byte),
    (i = .store a b x y ∧ t = canon (s.getV a)) ∨ (i = .b10st a b x y ∧ t = dec (s.getV a).val) →
    (x + y ≤ Config.tbSize → t.length + 1 ≤ y →
      ∃ m, exec i s = .next { s with tb := m, sreg := s.sreg.set b.val 1, pc := s.pc + 1 } ∧
        ∀ j, ({ s with tb := m } : State).tbByte j =
          if x ≤ j ∧ j < x + t.length then t.getD (j - x) 0 else if j = x + t.length then 0x00 else s.tbByte j) ∧
    (x + y ≤ Config.tbSize → y < t.length + 1 →
      exec i s = .next { s with sreg := s.sreg.set b.val 0, pc := s.pc + 1 }) ∧
    (Config.tbSize < x + y → faultsWith .bufferRange i s)

/-- R168: LOAD of a valid text of at most CAP bytes writes the trimmed value and 1; of an invalid text 0; of a valid longer one
CAPACITY_EXCEEDED; BUFFER_RANGE when the region leaves TB. -/
def Obligations.LoadParsesCanonicalText : Prop :=
  ∀ (a : VIdx) (b : SIdx) (x y : Nat) (s : State) (t : List Byte), t = (List.range y).map (fun k => s.tbByte (x + k)) →
    (x + y ≤ Config.tbSize → valid t = true → cnt t ≤ Config.cap →
      ∃ r p : VReg, exec (.load a b x y) s =
          .next { s with v := s.v.set a.val r, sreg := s.sreg.set b.val 1, pc := s.pc + 1 } ∧
        p.len = cnt t ∧
        (∀ k, k < cnt t → (p.byte k).toNat = 16 * hexval (t.getD (5 + 2 * k) 0) + hexval (t.getD (6 + 2 * k) 0)) ∧
        r.val = p.val ∧ r.trimmed) ∧
    (x + y ≤ Config.tbSize → valid t = true → Config.cap < cnt t → faultsWith .capacityExceeded (.load a b x y) s) ∧
    (x + y ≤ Config.tbSize → valid t = false →
      exec (.load a b x y) s = .next { s with sreg := s.sreg.set b.val 0, pc := s.pc + 1 }) ∧
    (Config.tbSize < x + y → faultsWith .bufferRange (.load a b x y) s)

/-- R170: LOAD of what STORE wrote gives the trimmed register back, and the register itself when it was trimmed. -/
def Obligations.LoadOfStoreIsTheValue : Prop :=
  ∀ (a a' : VIdx) (b b' : SIdx) (x y : Nat) (s : State), s.regsFit → x + y ≤ Config.tbSize →
    6 + 2 * (s.getV a).len ≤ y →
    ∃ t u, exec (.store a b x y) s = .next t ∧ t.getS b = 1 ∧ t.getV a = s.getV a ∧
      exec (.load a' b' x (5 + 2 * (s.getV a).len)) t = .next u ∧ u.getS b' = 1 ∧
      u.getV a' = (s.getV a).trim ∧ ((s.getV a).trimmed → u.getV a' = s.getV a)

/-! ### Ordering -/

/-- R180: CMP writes 0, 1 or 0xFFFF by length, then by the first mismatch from the top; the numeric order on trimmed operands. -/
def Obligations.CmpOrdersByLengthThenBytes : Prop :=
  ∀ (a c : VIdx) (b : SIdx) (s : State), ∃ r : Scalar,
    exec (.cmp a b c) s = .next { s with sreg := s.sreg.set b.val r, pc := s.pc + 1 } ∧
    ((s.getV a).len < (s.getV c).len → r = 0x0001) ∧ ((s.getV c).len < (s.getV a).len → r = 0xFFFF) ∧
    (∀ k, (s.getV a).len = (s.getV c).len → k < (s.getV a).len →
      (∀ j, k < j → j < (s.getV a).len → (s.getV a).byte j = (s.getV c).byte j) →
      ((s.getV a).byte k < (s.getV c).byte k → r = 0x0001) ∧ ((s.getV c).byte k < (s.getV a).byte k → r = 0xFFFF)) ∧
    (s.getV a = s.getV c → r = 0x0000) ∧
    ((s.getV a).trimmed → (s.getV c).trimmed →
      (r = 0x0000 ↔ (s.getV a).val = (s.getV c).val) ∧ (r = 0x0001 ↔ (s.getV a).val < (s.getV c).val) ∧
      (r = 0xFFFF ↔ (s.getV c).val < (s.getV a).val))

/-- R181, R182, R183, R185: LT, LE and EQ write the truth of what CMP of the same operands gives, EQ is equality of the stored
pairs, and the comparison contract holds for every two registers, untrimmed ones too. -/
def Obligations.ComparisonContract : Prop :=
  (∀ (a c : VIdx) (b : SIdx) (s : State), ∃ r : Scalar,
    exec (.cmp a b c) s = .next { s with sreg := s.sreg.set b.val r, pc := s.pc + 1 } ∧
    exec (.lt a b c) s = .next { s with sreg := s.sreg.set b.val (if r = 0x0001 then 1 else 0), pc := s.pc + 1 } ∧
    exec (.le a b c) s = .next { s with sreg := s.sreg.set b.val (if r = 0xFFFF then 0 else 1), pc := s.pc + 1 } ∧
    exec (.eq a b c) s = .next { s with sreg := s.sreg.set b.val (if r = 0x0000 then 1 else 0), pc := s.pc + 1 } ∧
    (r = 0x0000 ↔ s.getV a = s.getV c) ∧ (a = c → r = 0x0000)) ∧
  (∀ x y : VReg, compare x x = 0x0000 ∧ (compare x y = 0x0001 ↔ compare y x = 0xFFFF) ∧
    (compare x y = 0x0000 ↔ compare y x = 0x0000) ∧
    (compare x y = 0x0000 ∨ compare x y = 0x0001 ∨ compare x y = 0xFFFF))

/-- R184: CLONE copies the stored pair, or faults for A = C. -/
def Obligations.CloneCopiesThePair : Prop :=
  ∀ (a c : VIdx) (s : State),
    (a ≠ c → exec (.clone a c) s = .next { s with v := s.v.set a.val (s.getV c), pc := s.pc + 1 }) ∧
    (a = c → faultsWith .aliasViolation (.clone a c) s)

/-! ### Addition and shifts -/

/-- R200: ADD gives the exact sum, at the longer operand's length or, on a final carry, one byte more. -/
def Obligations.AddGivesTheExactSum : Prop :=
  ∀ (a c : VIdx) (s : State) (l : Nat), l = max (s.getV a).len (s.getV c).len →
    (a ≠ c → (s.getV a).val + (s.getV c).val < 256 ^ l →
      ∃ r : VReg, exec (.add a c) s = .next { s with v := s.v.set a.val r, pc := s.pc + 1 } ∧
        r.len = l ∧ r.val = (s.getV a).val + (s.getV c).val) ∧
    (a ≠ c → 256 ^ l ≤ (s.getV a).val + (s.getV c).val → l + 1 ≤ Config.cap →
      ∃ r : VReg, exec (.add a c) s = .next { s with v := s.v.set a.val r, pc := s.pc + 1 } ∧
        r.len = l + 1 ∧ r.val = (s.getV a).val + (s.getV c).val) ∧
    (a ≠ c → 256 ^ l ≤ (s.getV a).val + (s.getV c).val → Config.cap < l + 1 →
      faultsWith .capacityExceeded (.add a c) s) ∧
    (a = c → faultsWith .aliasViolation (.add a c) s)

/-- R201, R202: ADDB adds a byte as a trimmed operand; INC is ADDB of 1. -/
def Obligations.AddbAndIncAddAByte : Prop :=
  ∀ (a : VIdx) (y : Nat) (s : State) (l : Nat) (i : Instr), (i = .addb a y ∧ y < 256) ∨ (i = .inc a ∧ y = 1) →
    l = max (s.getV a).len (if y = 0 then 0 else 1) →
    ((s.getV a).val + y < 256 ^ l →
      ∃ r : VReg, exec i s = .next { s with v := s.v.set a.val r, pc := s.pc + 1 } ∧
        r.len = l ∧ r.val = (s.getV a).val + y) ∧
    (256 ^ l ≤ (s.getV a).val + y → l + 1 ≤ Config.cap →
      ∃ r : VReg, exec i s = .next { s with v := s.v.set a.val r, pc := s.pc + 1 } ∧
        r.len = l + 1 ∧ r.val = (s.getV a).val + y) ∧
    (256 ^ l ≤ (s.getV a).val + y → Config.cap < l + 1 → faultsWith .capacityExceeded i s)

/-- R203, R205: BSHI and MBSHI multiply by 256^n, leave a zero value (and n = 0) alone, and fault beyond CAP. -/
def Obligations.ShiftUpMultiplies : Prop :=
  ∀ (a : VIdx) (y n : Nat) (s : State) (i : Instr), (i = .bshi a ∧ n = 1) ∨ (i = .mbshi a y ∧ n = y) →
    ((s.getV a).val = 0 ∨ n = 0 → exec i s = .next { s with pc := s.pc + 1 }) ∧
    ((s.getV a).val ≠ 0 → n ≠ 0 → (s.getV a).len + n ≤ Config.cap →
      ∃ r : VReg, exec i s = .next { s with v := s.v.set a.val r, pc := s.pc + 1 } ∧
        r.len = (s.getV a).len + n ∧ r.val = (s.getV a).val * 256 ^ n) ∧
    ((s.getV a).val ≠ 0 → n ≠ 0 → Config.cap < (s.getV a).len + n → faultsWith .capacityExceeded i s)

/-- R204, R206: BSHD and MBSHD divide by 256^n and trim; BSHD writes the byte shifted out (zero of a zero-length register). -/
def Obligations.ShiftDownDivides : Prop :=
  ∀ (a : VIdx) (b : SIdx) (y : Nat) (s : State),
    (∃ r : VReg, exec (.bshd a b) s =
        .next { s with v := s.v.set a.val r, sreg := s.sreg.set b.val (((s.getV a).byte 0).setWidth 16), pc := s.pc + 1 } ∧
      r.val = (s.getV a).val / 256 ∧ r.trimmed ∧ ((s.getV a).len = 0 → r = s.getV a ∧ (s.getV a).byte 0 = 0)) ∧
    (∃ r : VReg, exec (.mbshd a y) s = .next { s with v := s.v.set a.val r, pc := s.pc + 1 } ∧
      r.val = (s.getV a).val / 256 ^ y ∧ r.trimmed ∧ ((s.getV a).len ≤ y → r.len = 0))

/-! ### Subtraction, multiplication, division and square root -/

/-- R230, R231: SUB and DEC give the exact difference, trimmed, or UNDERFLOW. -/
def Obligations.SubGivesTheExactDifference : Prop :=
  ∀ (a c : VIdx) (s : State), (s.getV a).len ≤ Config.cap →
    (a ≠ c → (s.getV c).val ≤ (s.getV a).val →
      ∃ r : VReg, exec (.sub a c) s = .next { s with v := s.v.set a.val r, pc := s.pc + 1 } ∧
        r.val + (s.getV c).val = (s.getV a).val ∧ r.trimmed) ∧
    (a ≠ c → (s.getV a).val < (s.getV c).val → faultsWith .underflow (.sub a c) s) ∧
    (a = c → faultsWith .aliasViolation (.sub a c) s) ∧
    ((s.getV a).val ≠ 0 →
      ∃ r : VReg, exec (.dec a) s = .next { s with v := s.v.set a.val r, pc := s.pc + 1 } ∧
        r.val + 1 = (s.getV a).val ∧ r.trimmed) ∧
    ((s.getV a).val = 0 → faultsWith .underflow (.dec a) s)

/-- R232: SUB after ADD gives the trimmed accumulator back, and the accumulator itself when it was trimmed. -/
def Obligations.SubUndoesAdd : Prop :=
  ∀ (a c : VIdx) (s t : State), a ≠ c → s.regsFit → s.seq = .running → exec (.add a c) s = .next t → t.seq = .running →
    ∃ u, exec (.sub a c) t = .next u ∧ u.seq = .running ∧ u.getV a = (s.getV a).trim ∧
      ((s.getV a).trimmed → u.getV a = s.getV a)

/-- R240: MUL gives the exact product, trimmed, or CAPACITY_EXCEEDED where the product itself exceeds CAP bytes. -/
def Obligations.MulGivesTheExactProduct : Prop :=
  ∀ (a c : VIdx) (s : State),
    (a ≠ c → (s.getV a).val * (s.getV c).val < 256 ^ Config.cap →
      ∃ r : VReg, exec (.mul a c) s = .next { s with v := s.v.set a.val r, pc := s.pc + 1 } ∧
        r.val = (s.getV a).val * (s.getV c).val ∧ r.trimmed) ∧
    (a ≠ c → 256 ^ Config.cap ≤ (s.getV a).val * (s.getV c).val → faultsWith .capacityExceeded (.mul a c) s) ∧
    (a = c → faultsWith .aliasViolation (.mul a c) s)

/-- R250, R252: DIV writes the trimmed quotient and remainder of the division identity. -/
def Obligations.DivGivesQuotientAndRemainder : Prop :=
  ∀ (a b c d : VIdx) (s : State),
    ((a = b ∨ a = c ∨ a = d ∨ b = c ∨ b = d) → faultsWith .aliasViolation (.div a b c d) s) ∧
    (¬ (a = b ∨ a = c ∨ a = d ∨ b = c ∨ b = d) → (s.getV d).val = 0 → faultsWith .divisionByZero (.div a b c d) s) ∧
    (¬ (a = b ∨ a = c ∨ a = d ∨ b = c ∨ b = d) → (s.getV d).val ≠ 0 → (s.getV c).len ≤ Config.cap →
      ∃ q r : VReg, exec (.div a b c d) s =
          .next { s with v := (s.v.set a.val q).set b.val r, pc := s.pc + 1 } ∧
        (s.getV c).val = q.val * (s.getV d).val + r.val ∧ r.val < (s.getV d).val ∧ q.trimmed ∧ r.trimmed)

/-- R251: MOD writes the trimmed remainder. -/
def Obligations.ModGivesTheRemainder : Prop :=
  ∀ (b c d : VIdx) (s : State),
    ((b = c ∨ b = d) → faultsWith .aliasViolation (.mod b c d) s) ∧
    (¬ (b = c ∨ b = d) → (s.getV d).val = 0 → faultsWith .divisionByZero (.mod b c d) s) ∧
    (¬ (b = c ∨ b = d) → (s.getV d).val ≠ 0 → (s.getV c).len ≤ Config.cap →
      ∃ r : VReg, exec (.mod b c d) s = .next { s with v := s.v.set b.val r, pc := s.pc + 1 } ∧
        r.val < (s.getV d).val ∧ (∃ q, (s.getV c).val = q * (s.getV d).val + r.val) ∧ r.trimmed)

/-- R270, R272: SQRT writes the least r with r·r ≥ n, trimmed; exact on perfect squares. -/
def Obligations.SqrtGivesTheCeilingRoot : Prop :=
  ∀ (a c : VIdx) (s : State),
    (a ≠ c → (s.getV c).len ≤ Config.cap →
      ∃ r : VReg, exec (.sqrt a c) s = .next { s with v := s.v.set a.val r, pc := s.pc + 1 } ∧
        (s.getV c).val ≤ r.val * r.val ∧ (∀ m, (s.getV c).val ≤ m * m → r.val ≤ m) ∧ r.trimmed ∧
        (∀ k, (s.getV c).val = k * k → r.val * r.val = (s.getV c).val)) ∧
    (a = c → faultsWith .aliasViolation (.sqrt a c) s)

/-! ### The informative algorithms give the commands' results -/

/-- Schoolbook multiplication (45_multiplication.md) gives the product, and a partial product with its carry fits 16 bits. -/
def Obligations.SchoolbookMultiplicationIsExact : Prop :=
  (∀ m acc : List Byte, valOf (mulEngine m acc) = valOf m * valOf acc) ∧
  (∀ (b m : Byte) (carry : Nat), carry < 256 →
    b.toNat * m.toNat + carry < 65536 ∧ (b.toNat * m.toNat + carry) / 256 < 256)

/-- The restoring bit-serial engine gives quotient and remainder. -/
def Obligations.DivisionEngineIsExact : Prop :=
  ∀ (num : VReg) (d : Nat), 0 < d → divEngine num d = (num.val / d, num.val % d)

/-- The Newton extractor gives the ceiling square root. -/
def Obligations.SqrtEngineIsExact : Prop := ∀ num : VReg, sqrtEngine num = csqrt num.val

/-! ### Reset and the host register block -/

/-- What power-on reset leaves, from any state and in State.reset, and that the sequencer does not start by itself. CM and TB are
unspecified: a drawn value for each cell, in the model's numbering of draws (log entries 2, 4 and 9). -/
def Obligations.PowerOnResetValues : Prop :=
  (∀ (s : State) (ts : List Turn), s.turns = .powerOn :: ts → ∃ t, step s = .next t ∧
    (∀ i, t.getV i = ⟨[]⟩) ∧ (∀ i, t.getS i = 0) ∧ t.pc = 0 ∧ t.seq = .idle ∧ t.cause = .none ∧
    (∀ k, t.cmWord k = Config.drawnWord s.draws k) ∧ (∀ a, t.tbByte a = Config.drawnByte (s.draws + 1) a) ∧
    t.draws = s.draws + 2 ∧ t.turns = ts) ∧
  (∀ i, State.reset.getV i = ⟨[]⟩) ∧ (∀ i, State.reset.getS i = 0) ∧ State.reset.pc = 0 ∧ State.reset.seq = .idle ∧
  State.reset.cause = .none ∧ (∀ k, State.reset.cmWord k = Config.drawnWord State.reset.cmDraw k) ∧
  (∀ a, State.reset.tbByte a = Config.drawnByte State.reset.tbDraw a) ∧
  step State.reset = .next State.reset

/-- A CTRL write with bit 1 resets the registers and keeps CM; TB is kept unless RUNNING, when it is drawn afresh, in the model's
numbering of draws (log entries 4 and 10). -/
def Obligations.SoftResetValues : Prop :=
  ∀ (s : State) (data : Word), data.getLsbD 1 = true → ∃ t, hostWrites s 0x0008 data t ∧
    (∀ i, t.getV i = ⟨[]⟩) ∧ (∀ i, t.getS i = 0) ∧ t.pc = 0 ∧ t.seq = .idle ∧ t.cause = .none ∧
    (∀ k, t.cmWord k = s.cmWord k) ∧
    (s.seq ≠ .running → ∀ a, t.tbByte a = s.tbByte a) ∧
    (s.seq = .running → ∀ a, t.tbByte a = Config.drawnByte s.draws a) ∧ s.draws ≤ t.draws

/-- R323, R324: CTRL reads as 0; START from outside RUNNING clears CAUSE and runs at the current PC, in RUNNING it does nothing;
a write with both bits 0 does nothing. -/
def Obligations.CtrlStartsTheSequencer : Prop :=
  ∀ (s : State) (data : Word), hostReads s 0x0008 0 ∧
    (data.getLsbD 1 = false → data.getLsbD 0 = true → s.seq ≠ .running →
      hostWrites s 0x0008 data { s with seq := .running, cause := .none }) ∧
    (data.getLsbD 1 = false → data.getLsbD 0 = true → s.seq = .running → hostWrites s 0x0008 data s) ∧
    (data.getLsbD 1 = false → data.getLsbD 0 = false → hostWrites s 0x0008 data s) ∧
    (data.getLsbD 1 = true → hostWrites s 0x0008 data s.softReset)

/-- R301, R322, R326: ID and CAPS are constants; STATUS and CAUSE read STATE and CAUSE, each under its code, at any time. The
cause codes are the eight of R301, and 8..15 are never read. -/
def Obligations.IdentityAndStatusReads : Prop :=
  ∀ s : State, hostReads s 0x0000 0x4C554131 ∧ hostReads s 0x0004 0x0088441E ∧
    hostReads s 0x000C (s.seq.code.setWidth 32) ∧ hostReads s 0x0010 (s.cause.code.setWidth 32) ∧
    (s.seq = .idle → hostReads s 0x000C 0) ∧ (s.seq = .running → hostReads s 0x000C 1) ∧
    (s.seq = .halted → hostReads s 0x000C 2) ∧ (s.seq = .faulted → hostReads s 0x000C 3) ∧
    (s.cause = .none → hostReads s 0x0010 0) ∧ (s.cause = .capacityExceeded → hostReads s 0x0010 1) ∧
    (s.cause = .underflow → hostReads s 0x0010 2) ∧ (s.cause = .divisionByZero → hostReads s 0x0010 3) ∧
    (s.cause = .aliasViolation → hostReads s 0x0010 4) ∧ (s.cause = .illegalCommand → hostReads s 0x0010 5) ∧
    (s.cause = .bufferRange → hostReads s 0x0010 6) ∧ (s.cause = .fetchRange → hostReads s 0x0010 7) ∧
    s.cause.code.toNat < 8

/-- R325, R327, R328, R329: outside RUNNING, PC, S_i, CM_k and TB_k read the state, and the host writes PC, CM_k and the four
bytes of TB_k, and nothing else; a write of S_i is ignored at any time, and one of PC while RUNNING. -/
def Obligations.HostWindowsReadAndWriteTheState : Prop :=
  (∀ s : State, s.seq ≠ .running →
    hostReads s 0x0014 (s.pc.setWidth 32) ∧
    (∀ i : SIdx, hostReads s (0x0040 + 4 * i.val) ((s.getS i).setWidth 32)) ∧
    (∀ k, k < 256 → hostReads s (0x1000 + 4 * k) (s.cmWord k)) ∧
    (∀ k, k < 64 → hostReads s (0x2000 + 4 * k)
      (s.tbByte (4 * k + 3) ++ s.tbByte (4 * k + 2) ++ s.tbByte (4 * k + 1) ++ s.tbByte (4 * k)))) ∧
  (∀ (s : State) (data : Word), s.seq ≠ .running →
    hostWrites s 0x0014 data { s with pc := data.setWidth 9 } ∧
    (∀ k, k < 256 → ∃ m, hostWrites s (0x1000 + 4 * k) data { s with cm := m } ∧
      ∀ j, ({ s with cm := m } : State).cmWord j = if j = k then data else s.cmWord j) ∧
    (∀ k, k < 64 → ∃ m, hostWrites s (0x2000 + 4 * k) data { s with tb := m } ∧
      (∀ j, j < 4 → ({ s with tb := m } : State).tbByte (4 * k + j) = data.extractLsb' (8 * j) 8) ∧
      ∀ a, a < 4 * k ∨ 4 * k + 4 ≤ a → ({ s with tb := m } : State).tbByte a = s.tbByte a)) ∧
  (∀ (s : State) (data : Word) (i : SIdx), hostWrites s (0x0040 + 4 * i.val) data s) ∧
  (∀ (s : State) (data : Word), s.seq = .running → hostWrites s 0x0014 data s)

/-- While RUNNING (60_exceptions.md), reads of PC, S_i, CM_k and TB_k return a drawn word and tell nothing of the state, and
writes of PC, CM_k and TB_k are ignored. The numbering of the draw is the model's (log entry 4). -/
def Obligations.RunningHidesTheState : Prop :=
  ∀ (s : State) (o : Nat), s.seq = .running →
    (o / 4 * 4 = 0x0014 ∨ (0x0040 ≤ o ∧ o < 0x0080) ∨ (0x1000 ≤ o ∧ o < 0x1400) ∨ (0x2000 ≤ o ∧ o < 0x2100)) →
    step { s with turns := [.hostRead (Config.hostBase + o)] } =
      .next { s with turns := [], hostData := Config.drawnRead s.draws, draws := s.draws + 1 } ∧
    ∀ data, hostWrites s o data s

/-- The host reaches the value registers through no register of the block: what a host access answers and writes does not
depend on them, and no access but a soft reset changes them. -/
def Obligations.HostNeverReachesValueRegisters : Prop :=
  ∀ (s : State) (i : VIdx) (x : VReg),
    (∀ addr, ∃ t, takeTurn (.hostRead addr) s = .next t ∧ takeTurn (.hostRead addr) (s.setV i x) = .next (t.setV i x) ∧
      ∀ j, t.getV j = s.getV j) ∧
    (∀ addr data, (∀ o, hostOffset addr = some o → hostReg o = .ctrl → data.getLsbD 1 = false) →
      ∃ t, takeTurn (.hostWrite addr data) s = .next t ∧ takeTurn (.hostWrite addr data) (s.setV i x) = .next (t.setV i x) ∧
        ∀ j, t.getV j = s.getV j)

/-- Bits [1:0] of an offset are ignored (60_exceptions.md); an unmapped offset reads 0; a write to it or to a read-only register is ignored;
no read changes anything but the data the host gets back (and the number of the next draw, the model's
own, log entry 4). -/
def Obligations.UnmappedAndReadOnlyOffsets : Prop :=
  (∀ o e, e < 4 → hostReg (4 * o + e) = hostReg (4 * o)) ∧
  (∀ (s : State) (o : Nat), ¬ (o < 0x0018) → ¬ (0x0040 ≤ o ∧ o < 0x0080) → ¬ (0x1000 ≤ o ∧ o < 0x1400) →
    ¬ (0x2000 ≤ o ∧ o < 0x2100) → hostReads s o 0 ∧ ∀ data, hostWrites s o data s) ∧
  (∀ (s : State) (o : Nat) (data : Word),
    o < 0x0008 ∨ (0x000C ≤ o ∧ o < 0x0014) ∨ (0x0040 ≤ o ∧ o < 0x0080) → hostWrites s o data s) ∧
  (∀ (s : State) (addr : Nat), ∃ data n, step { s with turns := [.hostRead addr] } =
    .next { s with turns := [], hostData := data, draws := n })
end

