-- ==== Sys2Proof/Laws/Decode.lean ====
section
/-! SUPPORT. The fields of a formatted word, what a mask leaves of it, and that at most one row of the opcode table selects a
word. -/

namespace Sys2Proof

theorem getLsbD_placed (n lo i : Nat) :
    (placed n lo).getLsbD i = (decide (i < 32) && !decide (i < lo) && n.testBit (i - lo)) := by
  simp only [placed, BitVec.getLsbD_shiftLeft, BitVec.getLsbD_ofNat]
  by_cases h : i < 32
  · have : i - lo < 32 := by omega
    simp [h, this]
  · simp [h]

/-- A field read where it was placed. -/
theorem placed_at (n lo k : Nat) (hk : lo + k ≤ 32) : (placed n lo).extractLsb' lo k = BitVec.ofNat k n := by
  refine BitVec.eq_of_getLsbD_eq fun i hi => ?_
  rw [BitVec.getLsbD_extractLsb', getLsbD_placed, BitVec.getLsbD_ofNat]
  have h1 : lo + i < 32 := by omega
  simp [hi, h1]

/-- A field reads zero above what was placed. -/
theorem placed_above {n k : Nat} (h : n < 2 ^ k) {lo start : Nat} (hs : lo + k ≤ start) (len : Nat) :
    (placed n lo).extractLsb' start len = 0#len := by
  refine BitVec.eq_of_getLsbD_eq fun i hi => ?_
  rw [BitVec.getLsbD_extractLsb', getLsbD_placed,
    Nat.testBit_lt_two_pow (Nat.lt_of_lt_of_le h (Nat.pow_le_pow_right (by omega) (by omega)))]
  simp

/-- A field reads zero below what was placed. -/
theorem placed_below (n : Nat) {lo start len : Nat} (hs : start + len ≤ lo) :
    (placed n lo).extractLsb' start len = 0#len := by
  refine BitVec.eq_of_getLsbD_eq fun i hi => ?_
  rw [BitVec.getLsbD_extractLsb', getLsbD_placed]
  have h1 : start + i < lo := by omega
  simp [h1]

/-- A mask whose bits are zero over a field leaves nothing of it. -/
theorem placed_and_mask {n k lo : Nat} (h : n < 2 ^ k) {mask : Word} (hm : mask.extractLsb' lo k = 0#k) :
    placed n lo &&& mask = 0#32 := by
  refine BitVec.eq_of_getLsbD_eq fun i hi => ?_
  rw [BitVec.getLsbD_and, getLsbD_placed, BitVec.getLsbD_zero]
  by_cases h1 : i < lo
  · simp [h1]
  · by_cases h2 : i - lo < k
    · have := congrArg (fun b => b.getLsbD (i - lo)) hm
      simp only [BitVec.getLsbD_extractLsb', h2, BitVec.getLsbD_zero, decide_true, Bool.true_and] at this
      rw [show lo + (i - lo) = i by omega] at this
      simp [this]
    · rw [Nat.testBit_lt_two_pow (Nat.lt_of_lt_of_le h (Nat.pow_le_pow_right (by omega) (by omega)))]
      simp

/-- A register field a mask leaves nothing of: it is zero, or the mask does not cover it. -/
theorem placed_reg_and_mask {r : Fin 16} {lo : Nat} {mask : Word} (h : r = 0 ∨ mask.extractLsb' lo 4 = 0#4) :
    placed r.val lo &&& mask = 0#32 := by
  rcases h with rfl | h
  · simp [placed]
  · exact placed_and_mask (k := 4) r.isLt h

/-- An immediate a mask leaves nothing of: it is zero, or the mask does not cover its k bits. -/
theorem placed_imm_and_mask {n lo k : Nat} (hn : n < 2 ^ k) {mask : Word} (h : n = 0 ∨ mask.extractLsb' lo k = 0#k) :
    placed n lo &&& mask = 0#32 := by
  rcases h with rfl | h
  · simp [placed]
  · exact placed_and_mask hn h

theorem formatR_and_mask {op : Nat} {a b c d : Fin 16} {mask pattern : Word} (hop : placed op 24 &&& mask = pattern)
    (ha : a = 0 ∨ mask.extractLsb' 20 4 = 0#4) (hb : b = 0 ∨ mask.extractLsb' 16 4 = 0#4)
    (hc : c = 0 ∨ mask.extractLsb' 12 4 = 0#4) (hd : d = 0 ∨ mask.extractLsb' 8 4 = 0#4) :
    formatR op a b c d &&& mask = pattern := by
  simp only [formatR, BitVec.and_comm _ mask, BitVec.and_or_distrib_left]
  simp only [BitVec.and_comm mask, hop, placed_reg_and_mask ha, placed_reg_and_mask hb, placed_reg_and_mask hc,
    placed_reg_and_mask hd, BitVec.or_zero]

theorem formatI_and_mask {op : Nat} {a b : Fin 16} {x y : Nat} (hx : x < 256) (hy : y < 256) {mask pattern : Word}
    (hop : placed op 24 &&& mask = pattern) (ha : a = 0 ∨ mask.extractLsb' 20 4 = 0#4)
    (hb : b = 0 ∨ mask.extractLsb' 16 4 = 0#4) (hxm : x = 0 ∨ mask.extractLsb' 8 8 = 0#8)
    (hym : y = 0 ∨ mask.extractLsb' 0 8 = 0#8) : formatI op a b x y &&& mask = pattern := by
  simp only [formatI, BitVec.and_comm _ mask, BitVec.and_or_distrib_left]
  simp only [BitVec.and_comm mask, hop, placed_reg_and_mask ha, placed_reg_and_mask hb,
    placed_imm_and_mask (k := 8) hx hxm, placed_imm_and_mask (k := 8) hy hym, BitVec.or_zero]

theorem formatS_and_mask {op : Nat} {a : Fin 16} {k y : Nat} (hk : k < 4096) (hy : y < 256) {mask pattern : Word}
    (hop : placed op 24 &&& mask = pattern) (ha : a = 0 ∨ mask.extractLsb' 20 4 = 0#4)
    (hkm : k = 0 ∨ mask.extractLsb' 8 12 = 0#12) (hym : y = 0 ∨ mask.extractLsb' 0 8 = 0#8) :
    formatS op a k y &&& mask = pattern := by
  simp only [formatS, BitVec.and_comm _ mask, BitVec.and_or_distrib_left]
  simp only [BitVec.and_comm mask, hop, placed_reg_and_mask ha, placed_imm_and_mask (k := 12) hk hkm,
    placed_imm_and_mask (k := 8) hy hym, BitVec.or_zero]

section Fields

variable (op : Nat) (a b c d : Fin 16) (x y k : Nat)

theorem lt_pow_four (r : Fin 16) : r.val < 2 ^ 4 := r.isLt

theorem ofNat_toFin (r : Fin 16) : (BitVec.ofNat 4 r.val).toFin = r := by
  apply Fin.ext
  simp

theorem fieldA_formatR : fieldA (formatR op a b c d) = a := by
  simp only [fieldA, formatR, BitVec.extractLsb'_or, placed_below op (show 20 + 4 ≤ 24 by omega),
    placed_at a.val 20 4 (by omega), placed_above (lt_pow_four b) (show 16 + 4 ≤ 20 by omega),
    placed_above (lt_pow_four c) (show 12 + 4 ≤ 20 by omega), placed_above (lt_pow_four d) (show 8 + 4 ≤ 20 by omega),
    BitVec.zero_or, BitVec.or_zero]
  exact ofNat_toFin a

theorem fieldB_formatR : fieldB (formatR op a b c d) = b := by
  simp only [fieldB, formatR, BitVec.extractLsb'_or, placed_below op (show 16 + 4 ≤ 24 by omega),
    placed_below a.val (show 16 + 4 ≤ 20 by omega), placed_at b.val 16 4 (by omega),
    placed_above (lt_pow_four c) (show 12 + 4 ≤ 16 by omega), placed_above (lt_pow_four d) (show 8 + 4 ≤ 16 by omega),
    BitVec.zero_or, BitVec.or_zero]
  exact ofNat_toFin b

theorem fieldC_formatR : fieldC (formatR op a b c d) = c := by
  simp only [fieldC, formatR, BitVec.extractLsb'_or, placed_below op (show 12 + 4 ≤ 24 by omega),
    placed_below a.val (show 12 + 4 ≤ 20 by omega), placed_below b.val (show 12 + 4 ≤ 16 by omega),
    placed_at c.val 12 4 (by omega), placed_above (lt_pow_four d) (show 8 + 4 ≤ 12 by omega),
    BitVec.zero_or, BitVec.or_zero]
  exact ofNat_toFin c

theorem fieldD_formatR : fieldD (formatR op a b c d) = d := by
  simp only [fieldD, formatR, BitVec.extractLsb'_or, placed_below op (show 8 + 4 ≤ 24 by omega),
    placed_below a.val (show 8 + 4 ≤ 20 by omega), placed_below b.val (show 8 + 4 ≤ 16 by omega),
    placed_below c.val (show 8 + 4 ≤ 12 by omega), placed_at d.val 8 4 (by omega),
    BitVec.zero_or]
  exact ofNat_toFin d

variable {x y k} (hx : x < 256) (hy : y < 256) (hk : k < 4096)

include hx hy in
theorem fieldA_formatI : fieldA (formatI op a b x y) = a := by
  simp only [fieldA, formatI, BitVec.extractLsb'_or, placed_below op (show 20 + 4 ≤ 24 by omega),
    placed_at a.val 20 4 (by omega), placed_above (lt_pow_four b) (show 16 + 4 ≤ 20 by omega),
    placed_above (k := 8) hx (show 8 + 8 ≤ 20 by omega), placed_above (k := 8) hy (show 0 + 8 ≤ 20 by omega),
    BitVec.zero_or, BitVec.or_zero]
  exact ofNat_toFin a

include hx hy in
theorem fieldB_formatI : fieldB (formatI op a b x y) = b := by
  simp only [fieldB, formatI, BitVec.extractLsb'_or, placed_below op (show 16 + 4 ≤ 24 by omega),
    placed_below a.val (show 16 + 4 ≤ 20 by omega), placed_at b.val 16 4 (by omega),
    placed_above (k := 8) hx (show 8 + 8 ≤ 16 by omega), placed_above (k := 8) hy (show 0 + 8 ≤ 16 by omega),
    BitVec.zero_or, BitVec.or_zero]
  exact ofNat_toFin b

include hx hy in
theorem fieldX_formatI : fieldX (formatI op a b x y) = x := by
  simp only [fieldX, formatI, BitVec.extractLsb'_or, placed_below op (show 8 + 8 ≤ 24 by omega),
    placed_below a.val (show 8 + 8 ≤ 20 by omega), placed_below b.val (show 8 + 8 ≤ 16 by omega),
    placed_at x 8 8 (by omega), placed_above (k := 8) hy (show 0 + 8 ≤ 8 by omega), BitVec.zero_or, BitVec.or_zero]
  simpa using hx

include hy in
theorem fieldY_formatI : fieldY (formatI op a b x y) = y := by
  simp only [fieldY, formatI, BitVec.extractLsb'_or, placed_below op (show 0 + 8 ≤ 24 by omega),
    placed_below a.val (show 0 + 8 ≤ 20 by omega), placed_below b.val (show 0 + 8 ≤ 16 by omega),
    placed_below x (show 0 + 8 ≤ 8 by omega), placed_at y 0 8 (by omega), BitVec.zero_or]
  simpa using hy

include hk hy in
theorem fieldA_formatS : fieldA (formatS op a k y) = a := by
  simp only [fieldA, formatS, BitVec.extractLsb'_or, placed_below op (show 20 + 4 ≤ 24 by omega),
    placed_at a.val 20 4 (by omega), placed_above (k := 12) hk (show 8 + 12 ≤ 20 by omega),
    placed_above (k := 8) hy (show 0 + 8 ≤ 20 by omega), BitVec.zero_or, BitVec.or_zero]
  exact ofNat_toFin a

include hk hy in
theorem fieldK_formatS : fieldK (formatS op a k y) = k := by
  simp only [fieldK, formatS, BitVec.extractLsb'_or, placed_below op (show 8 + 12 ≤ 24 by omega),
    placed_below a.val (show 8 + 12 ≤ 20 by omega), placed_at k 8 12 (by omega),
    placed_above (k := 8) hy (show 0 + 8 ≤ 8 by omega), BitVec.zero_or, BitVec.or_zero]
  simpa using hk

include hy in
theorem fieldY_formatS : fieldY (formatS op a k y) = y := by
  simp only [fieldY, formatS, BitVec.extractLsb'_or, placed_below op (show 0 + 8 ≤ 24 by omega),
    placed_below a.val (show 0 + 8 ≤ 20 by omega), placed_below k (show 0 + 8 ≤ 8 by omega),
    placed_at y 0 8 (by omega), BitVec.zero_or]
  simpa using hy

end Fields

/-- A field read and placed back gives the word's own bits there. -/
theorem getLsbD_placed_field (w : Word) (lo k i : Nat) :
    (placed (w.extractLsb' lo k).toNat lo).getLsbD i = (decide (lo ≤ i ∧ i < lo + k ∧ i < 32) && w.getLsbD i) := by
  rw [getLsbD_placed, BitVec.testBit_toNat, BitVec.getLsbD_extractLsb']
  by_cases h1 : lo ≤ i
  · by_cases h2 : i < lo + k
    · by_cases h3 : i < 32
      · simp [h1, h2, h3, show ¬ i < lo by omega, show i - lo < k by omega, show lo + (i - lo) = i by omega]
      · simp [h3]
    · simp [h2, show ¬ i - lo < k by omega]
  · simp [h1, show i < lo by omega]

/-- Where a row's mask covers a field, a word the row selects has the row's field there. -/
theorem field_of_selects {w mask pattern : Word} (h : w &&& mask = pattern) {lo k : Nat}
    (hm : mask.extractLsb' lo k = BitVec.allOnes k) : w.extractLsb' lo k = pattern.extractLsb' lo k := by
  rw [← h, BitVec.extractLsb'_and, hm, BitVec.and_allOnes]

/-- Every row's mask covers the opcode (R110). -/
theorem mask_covers_opcode : ∀ r ∈ opcodeTable, r.mask.extractLsb' 24 8 = BitVec.allOnes 8 := by decide

/-- The opcodes of the rows differ (R110). -/
theorem opcodes_differ : opcodeTable.Pairwise (fun r t => opcodeOf r.pattern ≠ opcodeOf t.pattern) := by decide

/-- A row that selects a word has the word's opcode. -/
theorem opcodeOf_of_selects {r : Row} (hr : r ∈ opcodeTable) {w : Word} (h : r.selects w = true) :
    opcodeOf w = opcodeOf r.pattern := by
  have hw : w &&& r.mask = r.pattern := by simpa [Row.selects] using h
  have := congrArg (fun z => BitVec.extractLsb' 24 8 z) hw
  simp only [BitVec.extractLsb'_and, mask_covers_opcode r hr, BitVec.and_allOnes] at this
  rw [opcodeOf, opcodeOf, this]

/-- A row that selects a word is the row the decoder takes: no two rows select one word (R110). -/
theorem decode_of_selects {r : Row} (hr : r ∈ opcodeTable) {w : Word} (h : r.selects w = true) :
    decode w = some (r.build w) := by
  have hu : ∀ (rows : List Row), (∀ t ∈ rows, t ∈ opcodeTable) →
      rows.Pairwise (fun r t => opcodeOf r.pattern ≠ opcodeOf t.pattern) → r ∈ rows →
      rows.find? (fun t => t.selects w) = some r := by
    intro rows
    induction rows with
    | nil => intro _ _ hm; cases hm
    | cons t rest ih =>
      intro hsub hpw hm
      obtain ⟨ht, hrest⟩ := List.pairwise_cons.mp hpw
      rcases List.mem_cons.mp hm with rfl | hm
      · simp [h]
      · have hne : t.selects w = false := by
          by_contra hs
          rw [Bool.not_eq_false] at hs
          exact ht r hm ((opcodeOf_of_selects (hsub t List.mem_cons_self) hs).symm.trans (opcodeOf_of_selects hr h))
        rw [List.find?_cons_of_neg (by simp [hne])]
        exact ih (fun u hu => hsub u (List.mem_cons_of_mem _ hu)) hrest hm
  rw [decode, hu opcodeTable (fun _ ht => ht) opcodes_differ hr]
  rfl

end Sys2Proof
end

