-- ==== Sys2Proof/Laws/Memory.lean ====
section
/-! SUPPORT. A memory read after a write, and that every memory operation keeps the canonical form and the bound. -/

namespace Sys2Proof.Machine

variable {α : Type}

@[simp] theorem Memory.get?_nil (k : Nat) : Memory.get? ([] : Memory α) k = none := rfl

@[simp] theorem Memory.get?_set_self (m : Memory α) (k : Nat) (x : α) :
    Memory.get? (Memory.set m k x) k = some x := by
  induction m with
  | nil => simp [Memory.set, Memory.get?]
  | cons p rest ih =>
    simp only [Memory.set]
    split
    · simp [Memory.get?]
    · split
      · simp [Memory.get?]
      · rw [Memory.get?, if_neg (by omega)]; exact ih

theorem Memory.get?_set_ne (m : Memory α) {k j : Nat} (x : α) (h : j ≠ k) :
    Memory.get? (Memory.set m k x) j = Memory.get? m j := by
  induction m with
  | nil => simp [Memory.set, Memory.get?, h.symm]
  | cons p rest ih =>
    simp only [Memory.set]
    split
    · simp [Memory.get?, h.symm]
    · split
      · next hk => subst hk; simp [Memory.get?, h.symm]
      · simp only [Memory.get?, ih]

theorem Memory.get?_set (m : Memory α) (k j : Nat) (x : α) :
    Memory.get? (Memory.set m k x) j = if j = k then some x else Memory.get? m j := by
  split
  · next h => subst h; exact Memory.get?_set_self m j x
  · next h => exact Memory.get?_set_ne m x h

theorem Memory.get?_setAll (m : Memory α) (xs : List α) (k j : Nat) :
    Memory.get? (Memory.setAll m k xs) j =
      if k ≤ j ∧ j < k + xs.length then xs[j - k]? else Memory.get? m j := by
  induction xs generalizing m k with
  | nil => rw [Memory.setAll, if_neg (by simp only [List.length_nil]; omega)]
  | cons x xs ih =>
    rw [Memory.setAll, ih]
    simp only [List.length_cons]
    by_cases hj : j = k
    · subst hj
      rw [if_neg (by omega), if_pos (by omega), Memory.get?_set_self]; simp
    · by_cases h : k + 1 ≤ j ∧ j < k + 1 + xs.length
      · rw [if_pos h, if_pos (by omega)]
        obtain ⟨n, hn⟩ : ∃ n, j - k = n + 1 := ⟨j - k - 1, by omega⟩
        rw [hn, List.getElem?_cons_succ, show j - (k + 1) = n by omega]
      · rw [if_neg h, if_neg (by omega), Memory.get?_set_ne m x hj]

theorem Memory.mem_set {m : Memory α} {k : Nat} {x : α} {p : Nat × α} (h : p ∈ Memory.set m k x) :
    p = (k, x) ∨ p ∈ m := by
  induction m with
  | nil => simpa [Memory.set] using h
  | cons q rest ih =>
    simp only [Memory.set] at h
    split at h
    · simpa using h
    · split at h
      · rcases List.mem_cons.mp h with h | h
        · exact .inl h
        · exact .inr (List.mem_cons_of_mem _ h)
      · rcases List.mem_cons.mp h with h | h
        · exact .inr (h ▸ List.mem_cons_self)
        · exact (ih h).imp id (List.mem_cons_of_mem _)

theorem Memory.wf_set {m : Memory α} (hm : Memory.wf m) (k : Nat) (x : α) : Memory.wf (Memory.set m k x) := by
  induction m with
  | nil => simp [Memory.set, Memory.wf]
  | cons q rest ih =>
    obtain ⟨hq, hrest⟩ := List.pairwise_cons.mp hm
    simp only [Memory.set]
    split
    · next h =>
      refine List.pairwise_cons.mpr ⟨fun p hp => ?_, hm⟩
      rcases List.mem_cons.mp hp with hp | hp
      · simpa [hp] using h
      · exact Nat.lt_trans h (hq p hp)
    · split
      · next h => exact List.pairwise_cons.mpr ⟨fun p hp => by simpa [h] using hq p hp, hrest⟩
      · refine List.pairwise_cons.mpr ⟨fun p hp => ?_, ih hrest⟩
        rcases Memory.mem_set hp with hp | hp
        · simp only [hp]; omega
        · exact hq p hp

theorem Memory.wf_setAll {m : Memory α} (hm : Memory.wf m) (k : Nat) (xs : List α) :
    Memory.wf (Memory.setAll m k xs) := by
  induction xs generalizing m k with
  | nil => exact hm
  | cons x xs ih => exact ih (Memory.wf_set hm k x) (k + 1)

theorem Memory.below_set {m : Memory α} {n : Nat} (hm : Memory.below n m) {k : Nat} (hk : k < n) (x : α) :
    Memory.below n (Memory.set m k x) := by
  intro p hp
  rcases Memory.mem_set hp with hp | hp
  · simpa [hp] using hk
  · exact hm p hp

theorem Memory.below_setAll {m : Memory α} {n : Nat} (hm : Memory.below n m) (xs : List α) {k : Nat}
    (hk : k + xs.length ≤ n) : Memory.below n (Memory.setAll m k xs) := by
  induction xs generalizing m k with
  | nil => exact hm
  | cons x xs ih =>
    simp only [List.length_cons] at hk
    exact ih (Memory.below_set hm (by omega) x) (by omega)

end Sys2Proof.Machine
end

