-- ==== Sys2Proof/Laws/Operands.lean ====
section
/-! SUPPORT. What the operand functions compute: value, pack, trimmed length, Trim, norm, the ceiling square root, and the sums
and shifts of the additive commands. -/

namespace Sys2Proof.Machine

theorem VReg.ext_bytes {r t : VReg} (h : r.bytes = t.bytes) : r = t := by cases r; cases t; simp_all

/-- LW bits hold every length 0..CAP (R7). -/
theorem cap_lt_pow_lw : Config.cap < 2 ^ Config.lw := by decide

/-- Within CAP the length field holds the length (R31). -/
theorem VReg.toNat_lenField {r : VReg} (h : r.len ≤ Config.cap) : r.lenField.toNat = r.len := by
  rw [VReg.lenField, BitVec.toNat_ofNat, Nat.mod_eq_of_lt (Nat.lt_of_le_of_lt h cap_lt_pow_lw)]

@[simp] theorem valOf_nil : valOf [] = 0 := rfl

@[simp] theorem valOf_cons (b : Byte) (bs : List Byte) : valOf (b :: bs) = b.toNat + 256 * valOf bs := rfl

theorem valOf_lt (bs : List Byte) : valOf bs < 256 ^ bs.length := by
  induction bs with
  | nil => simp
  | cons b bs ih =>
    rw [valOf_cons, List.length_cons, Nat.pow_succ]
    have := b.isLt
    omega

theorem VReg.val_lt (r : VReg) : r.val < 256 ^ r.len := valOf_lt r.bytes

theorem valOf_append (xs ys : List Byte) : valOf (xs ++ ys) = valOf xs + 256 ^ xs.length * valOf ys := by
  induction xs with
  | nil => simp
  | cons b xs ih =>
    rw [List.cons_append, valOf_cons, ih, valOf_cons, List.length_cons, Nat.pow_succ]
    ring

@[simp] theorem valOf_replicate_zero (n : Nat) : valOf (List.replicate n 0#8) = 0 := by
  induction n with
  | zero => rfl
  | succ n ih => simp [List.replicate_succ, ih]

/-- The value determines the bytes of a given length. -/
theorem valOf_inj {xs ys : List Byte} (hl : xs.length = ys.length) (hv : valOf xs = valOf ys) : xs = ys := by
  induction xs generalizing ys with
  | nil => exact (List.length_eq_zero_iff.mp hl.symm).symm
  | cons x xs ih =>
    cases ys with
    | nil => simp at hl
    | cons y ys =>
      rw [valOf_cons, valOf_cons] at hv
      have hx := x.isLt
      have hy := y.isLt
      have h1 : x.toNat = y.toNat := by omega
      have h2 : valOf xs = valOf ys := by omega
      rw [BitVec.eq_of_toNat_eq h1, ih (by simpa using hl) h2]

/-- A register is its length and its value (R32). -/
theorem VReg.ext_val {r t : VReg} (hl : r.len = t.len) (hv : r.val = t.val) : r = t :=
  VReg.ext_bytes (valOf_inj hl hv)

@[simp] theorem length_packBytes (x n : Nat) : (packBytes x n).length = n := by simp [packBytes]

@[simp] theorem len_pack (x n : Nat) : (pack x n).len = n := length_packBytes x n

theorem packBytes_succ (x n : Nat) : packBytes x (n + 1) = BitVec.ofNat 8 (x % 256) :: packBytes (x / 256) n := by
  simp only [packBytes, List.range_succ_eq_map, List.map_cons, List.map_map, Nat.pow_zero, Nat.div_one]
  congr 1
  refine List.map_congr_left fun k _ => ?_
  simp only [Function.comp, Nat.pow_succ, Nat.div_div_eq_div_mul, Nat.mul_comm]

theorem valOf_packBytes (x n : Nat) : valOf (packBytes x n) = x % 256 ^ n := by
  induction n generalizing x with
  | zero => simp [packBytes, Nat.mod_one]
  | succ n ih =>
    rw [packBytes_succ, valOf_cons, ih, Nat.pow_succ, Nat.mul_comm (256 ^ n) 256, Nat.mod_mul]
    simp

theorem val_pack {x n : Nat} (h : x < 256 ^ n) : (pack x n).val = x := by
  rw [VReg.val, pack, valOf_packBytes, Nat.mod_eq_of_lt h]

/-- tlen(x) is the least L with x < 256^L (R11). -/
theorem tlen_le_iff (x n : Nat) : tlen x ≤ n ↔ x < 256 ^ n := by
  rw [show (256 : Nat) = 2 ^ 8 from rfl, ← Nat.pow_mul]
  unfold tlen
  split
  · next h => simp [h]
  · next h =>
    rw [← Nat.log2_lt h]
    omega

theorem lt_pow_tlen (x : Nat) : x < 256 ^ tlen x := (tlen_le_iff x _).mp (Nat.le_refl _)

@[simp] theorem tlen_zero : tlen 0 = 0 := rfl

theorem tlen_eq_zero_iff (x : Nat) : tlen x = 0 ↔ x = 0 := by
  have := tlen_le_iff x 0
  simp only [Nat.le_zero_eq, Nat.pow_zero, Nat.lt_one_iff] at this
  exact this

theorem tlen_mono {x y : Nat} (h : x ≤ y) : tlen x ≤ tlen y :=
  (tlen_le_iff x _).mpr (Nat.lt_of_le_of_lt h (lt_pow_tlen y))

theorem VReg.tlen_val_le (r : VReg) : tlen r.val ≤ r.len := (tlen_le_iff _ _).mpr r.val_lt

theorem VReg.byte_eq (r : VReg) (k : Nat) : r.byte k = r.bytes.getD k 0#8 := rfl

/-- Bytes at and above the length are zero (R32). -/
theorem VReg.byte_of_len_le (r : VReg) {k : Nat} (h : r.len ≤ k) : r.byte k = 0 := by
  simp only [VReg.byte, List.getD_eq_getElem?_getD]
  rw [List.getElem?_eq_none h]
  rfl

/-- Byte k is (val div 256^k) mod 256 (R11, R74). -/
theorem VReg.byte_toNat (r : VReg) (k : Nat) : (r.byte k).toNat = r.val / 256 ^ k % 256 := by
  obtain ⟨bs⟩ := r
  simp only [VReg.byte, VReg.val]
  induction bs generalizing k with
  | nil => simp
  | cons b bs ih =>
    cases k with
    | zero =>
      have := b.isLt
      simp only [List.getD_cons_zero, valOf_cons, Nat.pow_zero, Nat.div_one]
      omega
    | succ k =>
      have := b.isLt
      rw [List.getD_cons_succ, ih, valOf_cons, Nat.pow_succ, Nat.mul_comm (256 ^ k), ← Nat.div_div_eq_div_mul]
      congr 2
      omega

/-- Trimmed means that the length is the least one the value fits in (R11). -/
theorem VReg.trimmed_iff (r : VReg) : r.trimmed ↔ r.len = tlen r.val := by
  have hle := r.tlen_val_le
  unfold VReg.trimmed
  by_cases h0 : r.len = 0
  · simp only [h0, true_or, true_iff]; omega
  · simp only [h0, false_or]
    have hb := r.byte_toNat (r.len - 1)
    have hlt := r.val_lt
    have hpow : 256 ^ r.len = 256 ^ (r.len - 1) * 256 := by rw [← Nat.pow_succ]; congr 1; omega
    rw [hpow] at hlt
    have hdiv : r.val / 256 ^ (r.len - 1) < 256 := (Nat.div_lt_iff_lt_mul (Nat.pos_of_ne_zero (by simp))).mpr (by
      rw [Nat.mul_comm]; exact hlt)
    rw [Nat.mod_eq_of_lt hdiv] at hb
    have key := tlen_le_iff r.val (r.len - 1)
    constructor
    · intro hne
      by_contra hlen
      have : r.val < 256 ^ (r.len - 1) := key.mp (by omega)
      rw [Nat.div_eq_of_lt this] at hb
      exact hne (BitVec.eq_of_toNat_eq (by simpa using hb))
    · intro hlen hz
      rw [hz] at hb
      have : r.val < 256 ^ (r.len - 1) := by
        rcases Nat.div_eq_zero_iff.mp hb.symm with h | h
        · exact absurd h (Nat.ne_of_gt (Nat.pos_of_ne_zero (by simp)))
        · exact h
      have := key.mpr this
      omega

theorem pack_trimmed (x : Nat) : (pack x (tlen x)).trimmed := by
  rw [VReg.trimmed_iff, len_pack, val_pack (lt_pow_tlen x)]

@[simp] theorem VReg.val_trim (r : VReg) : r.trim.val = r.val := val_pack (lt_pow_tlen _)

@[simp] theorem VReg.len_trim (r : VReg) : r.trim.len = tlen r.val := len_pack _ _

theorem VReg.trimmed_trim (r : VReg) : r.trim.trimmed := pack_trimmed _

theorem VReg.len_trim_le (r : VReg) : r.trim.len ≤ r.len := r.len_trim ▸ r.tlen_val_le

/-- Trim leaves a trimmed register as it is (R143). -/
theorem VReg.trim_of_trimmed {r : VReg} (h : r.trimmed) : r.trim = r :=
  VReg.ext_val (r.len_trim ▸ ((VReg.trimmed_iff r).mp h).symm) r.val_trim

theorem VReg.zero_trimmed : VReg.zero.trimmed := .inl rfl

/-- What norm answers: the trimmed register of that value, when it fits (R11). -/
theorem norm_some {x : Nat} (h : tlen x ≤ Config.cap) : norm x = some (pack x (tlen x)) := if_neg (by omega)

theorem norm_none {x : Nat} (h : Config.cap < tlen x) : norm x = none := if_pos h

theorem norm_eq_some {x : Nat} {r : VReg} (h : norm x = some r) :
    r.val = x ∧ r.trimmed ∧ r.len = tlen x ∧ tlen x ≤ Config.cap := by
  unfold norm at h
  split at h
  · cases h
  · cases h
    exact ⟨val_pack (lt_pow_tlen x), pack_trimmed x, len_pack _ _, by omega⟩

theorem sqrtBelow_spec (x k m : Nat) (hlo : m * m < x) (hhi : x ≤ (m + 2 ^ k) * (m + 2 ^ k)) :
    sqrtBelow x k m * sqrtBelow x k m < x ∧ x ≤ (sqrtBelow x k m + 1) * (sqrtBelow x k m + 1) := by
  induction k generalizing m with
  | zero => simpa [sqrtBelow] using ⟨hlo, hhi⟩
  | succ k ih =>
    simp only [sqrtBelow]
    split
    · next h => exact ih _ h (by rwa [Nat.add_assoc, ← Nat.two_mul, Nat.mul_comm 2, ← Nat.pow_succ])
    · next h => exact ih _ hlo (by omega)

/-- csqrt(x) is the least r with r·r ≥ x (R11). -/
theorem csqrt_le_iff (x r : Nat) : csqrt x ≤ r ↔ x ≤ r * r := by
  unfold csqrt
  split
  · next h => simp [h]
  · next h =>
    obtain ⟨hlo, hhi⟩ := sqrtBelow_spec x (Nat.log2 x / 2 + 1) 0 (by omega) (by
      have hx : x < 2 ^ (Nat.log2 x + 1) := (Nat.log2_lt h).mp (Nat.lt_succ_self _)
      refine Nat.le_of_lt (Nat.lt_of_lt_of_le hx ?_)
      rw [Nat.zero_add, ← Nat.pow_add]
      exact Nat.pow_le_pow_right (by omega) (by omega))
    constructor
    · intro hr
      exact Nat.le_trans hhi (Nat.mul_le_mul hr hr)
    · intro hr
      by_contra hlt
      have : r ≤ sqrtBelow x (Nat.log2 x / 2 + 1) 0 := by omega
      have := Nat.mul_le_mul this this
      omega

/-- The root of a value that fits CAP bytes fits CAP bytes (R270). -/
theorem tlen_csqrt_le {x n : Nat} (h : tlen x ≤ n) : tlen (csqrt x) ≤ n := by
  rw [tlen_le_iff] at *
  have hpos : 0 < 256 ^ n := Nat.pos_of_ne_zero (by simp)
  have h1 : csqrt x ≤ 256 ^ n - 1 + 1 - (if 256 ^ n = 1 then 1 else 1) := by
    rw [csqrt_le_iff]
    rcases Nat.lt_or_ge (256 ^ n) 2 with hs | hs
    · simp; omega
    · have hle : x ≤ 256 ^ n - 1 := by omega
      refine Nat.le_trans hle ?_
      simp only [ite_self]
      have : 256 ^ n - 1 + 1 - 1 = 256 ^ n - 1 := by omega
      rw [this]
      exact Nat.le_mul_of_pos_left _ (by omega)
  simp only [ite_self] at h1
  omega

theorem VReg.plus_fits {r : VReg} {n y : Nat} (h : r.val + y < 256 ^ max r.len n) :
    r.plus n y = some (pack (r.val + y) (max r.len n)) := if_pos h

theorem VReg.plus_grows {r : VReg} {n y : Nat} (h : 256 ^ max r.len n ≤ r.val + y)
    (hc : max r.len n + 1 ≤ Config.cap) : r.plus n y = some (pack (r.val + y) (max r.len n + 1)) := by
  rw [VReg.plus, if_neg (by omega), if_neg (by omega)]

theorem VReg.plus_none {r : VReg} {n y : Nat} (h : 256 ^ max r.len n ≤ r.val + y)
    (hc : Config.cap < max r.len n + 1) : r.plus n y = none := by
  rw [VReg.plus, if_neg (by omega), if_pos hc]

/-- The sum of two operands of lengths m and n fits one byte more than the longer. -/
theorem sum_lt_pow_succ {x y m n : Nat} (hx : x < 256 ^ m) (hy : y < 256 ^ n) : x + y < 256 ^ (max m n + 1) := by
  have h1 := Nat.pow_le_pow_right (show 256 > 0 by omega) (Nat.le_max_left m n)
  have h2 := Nat.pow_le_pow_right (show 256 > 0 by omega) (Nat.le_max_right m n)
  rw [Nat.pow_succ]
  omega

/-- What a sum answers: the exact value, at the longer length or one byte more (R200, R201). -/
theorem VReg.plus_eq_some {r t : VReg} {n y : Nat} (hy : y < 256 ^ n) (h : r.plus n y = some t) :
    t.val = r.val + y ∧ t.len = (if r.val + y < 256 ^ max r.len n then max r.len n else max r.len n + 1)
      ∧ (r.val + y < 256 ^ max r.len n ∨ t.len ≤ Config.cap) := by
  unfold VReg.plus at h
  split at h
  · next hs => cases h; exact ⟨val_pack hs, by simp [hs], .inl hs⟩
  · next hs =>
    split at h
    · cases h
    · next hc =>
      cases h
      refine ⟨val_pack (sum_lt_pow_succ r.val_lt hy), by simp [hs], .inr ?_⟩
      rw [len_pack]; omega

/-- The value of a register shifted up: n zero bytes below. -/
theorem VReg.val_replicate_append (r : VReg) (n : Nat) :
    (VReg.mk (List.replicate n 0#8 ++ r.bytes)).val = 256 ^ n * r.val := by
  rw [VReg.val, valOf_append, valOf_replicate_zero, List.length_replicate, Nat.zero_add]
  rfl

/-- The value of the bytes from n up: the value divided by 256^n. -/
theorem valOf_drop (bs : List Byte) (n : Nat) : valOf (bs.drop n) = valOf bs / 256 ^ n := by
  induction n generalizing bs with
  | zero => simp
  | succ n ih =>
    cases bs with
    | nil => simp
    | cons b bs =>
      have := b.isLt
      rw [List.drop_succ_cons, ih, valOf_cons, Nat.pow_succ, Nat.mul_comm (256 ^ n), ← Nat.div_div_eq_div_mul]
      congr 1
      omega

/-- What a shift down answers: the value divided by 256^n, trimmed (R204, R206). -/
theorem VReg.shiftDown_spec (r : VReg) (n : Nat) :
    (r.shiftDown n).val = r.val / 256 ^ n ∧ (r.shiftDown n).trimmed ∧ (r.shiftDown n).len ≤ r.len := by
  unfold VReg.shiftDown
  split
  · next h =>
    refine ⟨?_, VReg.zero_trimmed, Nat.zero_le _⟩
    rw [Nat.div_eq_of_lt (Nat.lt_of_lt_of_le r.val_lt (Nat.pow_le_pow_right (by omega) h))]
    rfl
  · refine ⟨?_, VReg.trimmed_trim _, Nat.le_trans (VReg.len_trim_le _) ?_⟩
    · rw [VReg.val_trim, VReg.val, valOf_drop]; rfl
    · simp only [VReg.len, List.length_drop]; omega

end Sys2Proof.Machine
end

