-- ==== Sys2Proof/Laws/State.lean ====
section
/-! SUPPORT. One lemma per field per named update of State, true by rfl, and what each reader gives after each update, so that no
proof unfolds a record update. -/

namespace Sys2Proof.Machine

variable (s : State)

@[simp] theorem State.setV_v (i : VIdx) (r : VReg) : (s.setV i r).v = s.v.set i.val r i.isLt := rfl
@[simp] theorem State.setV_sreg (i : VIdx) (r : VReg) : (s.setV i r).sreg = s.sreg := rfl
@[simp] theorem State.setV_pc (i : VIdx) (r : VReg) : (s.setV i r).pc = s.pc := rfl
@[simp] theorem State.setV_seq (i : VIdx) (r : VReg) : (s.setV i r).seq = s.seq := rfl
@[simp] theorem State.setV_cause (i : VIdx) (r : VReg) : (s.setV i r).cause = s.cause := rfl
@[simp] theorem State.setV_cm (i : VIdx) (r : VReg) : (s.setV i r).cm = s.cm := rfl
@[simp] theorem State.setV_cmDraw (i : VIdx) (r : VReg) : (s.setV i r).cmDraw = s.cmDraw := rfl
@[simp] theorem State.setV_tb (i : VIdx) (r : VReg) : (s.setV i r).tb = s.tb := rfl
@[simp] theorem State.setV_tbDraw (i : VIdx) (r : VReg) : (s.setV i r).tbDraw = s.tbDraw := rfl
@[simp] theorem State.setV_draws (i : VIdx) (r : VReg) : (s.setV i r).draws = s.draws := rfl
@[simp] theorem State.setV_turns (i : VIdx) (r : VReg) : (s.setV i r).turns = s.turns := rfl
@[simp] theorem State.setV_hostData (i : VIdx) (r : VReg) : (s.setV i r).hostData = s.hostData := rfl

@[simp] theorem State.setS_v (i : SIdx) (x : Scalar) : (s.setS i x).v = s.v := rfl
@[simp] theorem State.setS_sreg (i : SIdx) (x : Scalar) : (s.setS i x).sreg = s.sreg.set i.val x i.isLt := rfl
@[simp] theorem State.setS_pc (i : SIdx) (x : Scalar) : (s.setS i x).pc = s.pc := rfl
@[simp] theorem State.setS_seq (i : SIdx) (x : Scalar) : (s.setS i x).seq = s.seq := rfl
@[simp] theorem State.setS_cause (i : SIdx) (x : Scalar) : (s.setS i x).cause = s.cause := rfl
@[simp] theorem State.setS_cm (i : SIdx) (x : Scalar) : (s.setS i x).cm = s.cm := rfl
@[simp] theorem State.setS_cmDraw (i : SIdx) (x : Scalar) : (s.setS i x).cmDraw = s.cmDraw := rfl
@[simp] theorem State.setS_tb (i : SIdx) (x : Scalar) : (s.setS i x).tb = s.tb := rfl
@[simp] theorem State.setS_tbDraw (i : SIdx) (x : Scalar) : (s.setS i x).tbDraw = s.tbDraw := rfl
@[simp] theorem State.setS_draws (i : SIdx) (x : Scalar) : (s.setS i x).draws = s.draws := rfl
@[simp] theorem State.setS_turns (i : SIdx) (x : Scalar) : (s.setS i x).turns = s.turns := rfl
@[simp] theorem State.setS_hostData (i : SIdx) (x : Scalar) : (s.setS i x).hostData = s.hostData := rfl

@[simp] theorem State.setCm_v (k : Nat) (w : Word) : (s.setCm k w).v = s.v := rfl
@[simp] theorem State.setCm_sreg (k : Nat) (w : Word) : (s.setCm k w).sreg = s.sreg := rfl
@[simp] theorem State.setCm_pc (k : Nat) (w : Word) : (s.setCm k w).pc = s.pc := rfl
@[simp] theorem State.setCm_seq (k : Nat) (w : Word) : (s.setCm k w).seq = s.seq := rfl
@[simp] theorem State.setCm_cause (k : Nat) (w : Word) : (s.setCm k w).cause = s.cause := rfl
@[simp] theorem State.setCm_cm (k : Nat) (w : Word) : (s.setCm k w).cm = Memory.set s.cm k w := rfl
@[simp] theorem State.setCm_cmDraw (k : Nat) (w : Word) : (s.setCm k w).cmDraw = s.cmDraw := rfl
@[simp] theorem State.setCm_tb (k : Nat) (w : Word) : (s.setCm k w).tb = s.tb := rfl
@[simp] theorem State.setCm_tbDraw (k : Nat) (w : Word) : (s.setCm k w).tbDraw = s.tbDraw := rfl
@[simp] theorem State.setCm_draws (k : Nat) (w : Word) : (s.setCm k w).draws = s.draws := rfl
@[simp] theorem State.setCm_turns (k : Nat) (w : Word) : (s.setCm k w).turns = s.turns := rfl
@[simp] theorem State.setCm_hostData (k : Nat) (w : Word) : (s.setCm k w).hostData = s.hostData := rfl

@[simp] theorem State.memWrite_v (a : Nat) (t : List Byte) : (s.memWrite a t).v = s.v := rfl
@[simp] theorem State.memWrite_sreg (a : Nat) (t : List Byte) : (s.memWrite a t).sreg = s.sreg := rfl
@[simp] theorem State.memWrite_pc (a : Nat) (t : List Byte) : (s.memWrite a t).pc = s.pc := rfl
@[simp] theorem State.memWrite_seq (a : Nat) (t : List Byte) : (s.memWrite a t).seq = s.seq := rfl
@[simp] theorem State.memWrite_cause (a : Nat) (t : List Byte) : (s.memWrite a t).cause = s.cause := rfl
@[simp] theorem State.memWrite_cm (a : Nat) (t : List Byte) : (s.memWrite a t).cm = s.cm := rfl
@[simp] theorem State.memWrite_cmDraw (a : Nat) (t : List Byte) : (s.memWrite a t).cmDraw = s.cmDraw := rfl
@[simp] theorem State.memWrite_tb (a : Nat) (t : List Byte) : (s.memWrite a t).tb = Memory.setAll s.tb a t := rfl
@[simp] theorem State.memWrite_tbDraw (a : Nat) (t : List Byte) : (s.memWrite a t).tbDraw = s.tbDraw := rfl
@[simp] theorem State.memWrite_draws (a : Nat) (t : List Byte) : (s.memWrite a t).draws = s.draws := rfl
@[simp] theorem State.memWrite_turns (a : Nat) (t : List Byte) : (s.memWrite a t).turns = s.turns := rfl
@[simp] theorem State.memWrite_hostData (a : Nat) (t : List Byte) : (s.memWrite a t).hostData = s.hostData := rfl

@[simp] theorem State.advance_v : (s.advance).v = s.v := rfl
@[simp] theorem State.advance_sreg : (s.advance).sreg = s.sreg := rfl
@[simp] theorem State.advance_pc : (s.advance).pc = s.pc + 1 := rfl
@[simp] theorem State.advance_seq : (s.advance).seq = s.seq := rfl
@[simp] theorem State.advance_cause : (s.advance).cause = s.cause := rfl
@[simp] theorem State.advance_cm : (s.advance).cm = s.cm := rfl
@[simp] theorem State.advance_cmDraw : (s.advance).cmDraw = s.cmDraw := rfl
@[simp] theorem State.advance_tb : (s.advance).tb = s.tb := rfl
@[simp] theorem State.advance_tbDraw : (s.advance).tbDraw = s.tbDraw := rfl
@[simp] theorem State.advance_draws : (s.advance).draws = s.draws := rfl
@[simp] theorem State.advance_turns : (s.advance).turns = s.turns := rfl
@[simp] theorem State.advance_hostData : (s.advance).hostData = s.hostData := rfl

@[simp] theorem State.halt_v : (s.halt).v = s.v := rfl
@[simp] theorem State.halt_sreg : (s.halt).sreg = s.sreg := rfl
@[simp] theorem State.halt_pc : (s.halt).pc = s.pc := rfl
@[simp] theorem State.halt_seq : (s.halt).seq = .halted := rfl
@[simp] theorem State.halt_cause : (s.halt).cause = s.cause := rfl
@[simp] theorem State.halt_cm : (s.halt).cm = s.cm := rfl
@[simp] theorem State.halt_cmDraw : (s.halt).cmDraw = s.cmDraw := rfl
@[simp] theorem State.halt_tb : (s.halt).tb = s.tb := rfl
@[simp] theorem State.halt_tbDraw : (s.halt).tbDraw = s.tbDraw := rfl
@[simp] theorem State.halt_draws : (s.halt).draws = s.draws := rfl
@[simp] theorem State.halt_turns : (s.halt).turns = s.turns := rfl
@[simp] theorem State.halt_hostData : (s.halt).hostData = s.hostData := rfl

@[simp] theorem State.enterFault_v (c : Cause) : (s.enterFault c).v = s.v := rfl
@[simp] theorem State.enterFault_sreg (c : Cause) : (s.enterFault c).sreg = s.sreg := rfl
@[simp] theorem State.enterFault_pc (c : Cause) : (s.enterFault c).pc = s.pc := rfl
@[simp] theorem State.enterFault_seq (c : Cause) : (s.enterFault c).seq = .faulted := rfl
@[simp] theorem State.enterFault_cause (c : Cause) : (s.enterFault c).cause = c := rfl
@[simp] theorem State.enterFault_cm (c : Cause) : (s.enterFault c).cm = s.cm := rfl
@[simp] theorem State.enterFault_cmDraw (c : Cause) : (s.enterFault c).cmDraw = s.cmDraw := rfl
@[simp] theorem State.enterFault_tb (c : Cause) : (s.enterFault c).tb = s.tb := rfl
@[simp] theorem State.enterFault_tbDraw (c : Cause) : (s.enterFault c).tbDraw = s.tbDraw := rfl
@[simp] theorem State.enterFault_draws (c : Cause) : (s.enterFault c).draws = s.draws := rfl
@[simp] theorem State.enterFault_turns (c : Cause) : (s.enterFault c).turns = s.turns := rfl
@[simp] theorem State.enterFault_hostData (c : Cause) : (s.enterFault c).hostData = s.hostData := rfl

@[simp] theorem State.getS_setV (i : VIdx) (r : VReg) (j : SIdx) : (s.setV i r).getS j = s.getS j := rfl
@[simp] theorem State.tbByte_setV (i : VIdx) (r : VReg) (j : Nat) : (s.setV i r).tbByte j = s.tbByte j := rfl
@[simp] theorem State.cmWord_setV (i : VIdx) (r : VReg) (j : Nat) : (s.setV i r).cmWord j = s.cmWord j := rfl
@[simp] theorem State.memRead_setV (i : VIdx) (r : VReg) (j n : Nat) : (s.setV i r).memRead j n = s.memRead j n := rfl
@[simp] theorem State.getV_setS (i : SIdx) (x : Scalar) (j : VIdx) : (s.setS i x).getV j = s.getV j := rfl
@[simp] theorem State.tbByte_setS (i : SIdx) (x : Scalar) (j : Nat) : (s.setS i x).tbByte j = s.tbByte j := rfl
@[simp] theorem State.cmWord_setS (i : SIdx) (x : Scalar) (j : Nat) : (s.setS i x).cmWord j = s.cmWord j := rfl
@[simp] theorem State.memRead_setS (i : SIdx) (x : Scalar) (j n : Nat) : (s.setS i x).memRead j n = s.memRead j n := rfl
@[simp] theorem State.getV_setCm (k : Nat) (w : Word) (j : VIdx) : (s.setCm k w).getV j = s.getV j := rfl
@[simp] theorem State.getS_setCm (k : Nat) (w : Word) (j : SIdx) : (s.setCm k w).getS j = s.getS j := rfl
@[simp] theorem State.tbByte_setCm (k : Nat) (w : Word) (j : Nat) : (s.setCm k w).tbByte j = s.tbByte j := rfl
@[simp] theorem State.memRead_setCm (k : Nat) (w : Word) (j n : Nat) : (s.setCm k w).memRead j n = s.memRead j n := rfl
@[simp] theorem State.getV_memWrite (a : Nat) (t : List Byte) (j : VIdx) : (s.memWrite a t).getV j = s.getV j := rfl
@[simp] theorem State.getS_memWrite (a : Nat) (t : List Byte) (j : SIdx) : (s.memWrite a t).getS j = s.getS j := rfl
@[simp] theorem State.cmWord_memWrite (a : Nat) (t : List Byte) (j : Nat) : (s.memWrite a t).cmWord j = s.cmWord j := rfl
@[simp] theorem State.getV_advance (j : VIdx) : (s.advance).getV j = s.getV j := rfl
@[simp] theorem State.getS_advance (j : SIdx) : (s.advance).getS j = s.getS j := rfl
@[simp] theorem State.tbByte_advance (j : Nat) : (s.advance).tbByte j = s.tbByte j := rfl
@[simp] theorem State.cmWord_advance (j : Nat) : (s.advance).cmWord j = s.cmWord j := rfl
@[simp] theorem State.memRead_advance (j n : Nat) : (s.advance).memRead j n = s.memRead j n := rfl
@[simp] theorem State.getV_halt (j : VIdx) : (s.halt).getV j = s.getV j := rfl
@[simp] theorem State.getS_halt (j : SIdx) : (s.halt).getS j = s.getS j := rfl
@[simp] theorem State.tbByte_halt (j : Nat) : (s.halt).tbByte j = s.tbByte j := rfl
@[simp] theorem State.cmWord_halt (j : Nat) : (s.halt).cmWord j = s.cmWord j := rfl
@[simp] theorem State.memRead_halt (j n : Nat) : (s.halt).memRead j n = s.memRead j n := rfl
@[simp] theorem State.getV_enterFault (c : Cause) (j : VIdx) : (s.enterFault c).getV j = s.getV j := rfl
@[simp] theorem State.getS_enterFault (c : Cause) (j : SIdx) : (s.enterFault c).getS j = s.getS j := rfl
@[simp] theorem State.tbByte_enterFault (c : Cause) (j : Nat) : (s.enterFault c).tbByte j = s.tbByte j := rfl
@[simp] theorem State.cmWord_enterFault (c : Cause) (j : Nat) : (s.enterFault c).cmWord j = s.cmWord j := rfl
@[simp] theorem State.memRead_enterFault (c : Cause) (j n : Nat) : (s.enterFault c).memRead j n = s.memRead j n := rfl

@[simp] theorem State.getV_setV_self (i : VIdx) (r : VReg) : (s.setV i r).getV i = r := by
  simp [State.getV, State.setV]

theorem State.getV_setV_ne {i j : VIdx} (r : VReg) (h : j ≠ i) : (s.setV i r).getV j = s.getV j := by
  have h' : i.val ≠ j.val := fun e => h (Fin.ext e.symm)
  simp [State.getV, State.setV, h']

theorem State.getV_setV (i j : VIdx) (r : VReg) : (s.setV i r).getV j = if j = i then r else s.getV j := by
  split
  · next h => subst h; exact s.getV_setV_self j r
  · next h => exact s.getV_setV_ne r h

@[simp] theorem State.getS_setS_self (i : SIdx) (x : Scalar) : (s.setS i x).getS i = x := by
  simp [State.getS, State.setS]

theorem State.getS_setS_ne {i j : SIdx} (x : Scalar) (h : j ≠ i) : (s.setS i x).getS j = s.getS j := by
  have h' : i.val ≠ j.val := fun e => h (Fin.ext e.symm)
  simp [State.getS, State.setS, h']

theorem State.getS_setS (i j : SIdx) (x : Scalar) : (s.setS i x).getS j = if j = i then x else s.getS j := by
  split
  · next h => subst h; exact s.getS_setS_self j x
  · next h => exact s.getS_setS_ne x h

/-- A register file is what its registers read as. -/
theorem State.v_ext {s t : State} (h : ∀ i, s.getV i = t.getV i) : s.v = t.v :=
  Vector.ext fun i hi => by simpa [State.getV] using h ⟨i, hi⟩

theorem State.sreg_ext {s t : State} (h : ∀ i, s.getS i = t.getS i) : s.sreg = t.sreg :=
  Vector.ext fun i hi => by simpa [State.getS] using h ⟨i, hi⟩

/-- Writing back what a register holds changes nothing. -/
@[simp] theorem State.setV_getV (i : VIdx) : s.setV i (s.getV i) = s := by
  have h : (s.setV i (s.getV i)).v = s.v := State.v_ext fun j => by rw [State.getV_setV]; split <;> simp_all
  cases s
  simpa [State.setV] using h

/-- A byte of TB after MemWrite (R73): the written text inside its region, every other byte as before. -/
theorem State.tbByte_memWrite (a : Nat) (t : List Byte) (j : Nat) :
    (s.memWrite a t).tbByte j = if a ≤ j ∧ j < a + t.length then t.getD (j - a) 0#8 else s.tbByte j := by
  simp only [State.tbByte, State.memWrite_tb, State.memWrite_tbDraw, Memory.get?_setAll]
  split
  · next h =>
    have : j - a < t.length := by omega
    simp [List.getD_eq_getElem?_getD, List.getElem?_eq_getElem this]
  · rfl

theorem State.cmWord_setCm (k j : Nat) (w : Word) :
    (s.setCm k w).cmWord j = if j = k then w else s.cmWord j := by
  simp only [State.cmWord, State.setCm_cm, State.setCm_cmDraw, Memory.get?_set]
  split <;> rfl

/-- MemRead of the region MemWrite wrote gives the text (R73). -/
theorem State.memRead_memWrite (a : Nat) (t : List Byte) (n : Nat) (hn : n ≤ t.length) :
    (s.memWrite a t).memRead a n = t.take n := by
  refine List.ext_getElem (by simp [State.memRead, hn]) fun i h1 h2 => ?_
  simp only [State.memRead, List.length_map, List.length_range] at h1
  have hi : i < t.length := by omega
  simp [State.memRead, State.tbByte_memWrite, hi]

@[simp] theorem State.length_memRead (a n : Nat) : (s.memRead a n).length = n := by simp [State.memRead]

theorem State.start_of_stopped {s : State} (h : s.seq ≠ .running) :
    s.start = { s with seq := .running, cause := .none } := if_neg h

theorem State.start_of_running {s : State} (h : s.seq = .running) : s.start = s := if_pos h

end Sys2Proof.Machine
end

