-- ==== Sys2Proof/Laws/Ops.lean ====
section
/-! SUPPORT. What each shared operation can answer, and, from that, what a command can do: fault with nothing written, halt, or
complete having written only the registers its row of R34 and R36 names. -/

namespace Sys2Proof.Machine

theorem raise_eq (c : Cause) (s : State) : raise c s = .next (s.enterFault c) := rfl

theorem complete_eq (s : State) : complete s = .next s.advance := rfl

@[simp] theorem writeV_some (a : VIdx) (r : VReg) (s : State) : writeV a (some r) s = .next (s.setV a r).advance := rfl

@[simp] theorem writeV_none (a : VIdx) (s : State) : writeV a none s = .next (s.enterFault .capacityExceeded) := rfl

theorem writeS_eq (b : SIdx) (x : Scalar) (s : State) : writeS b x s = .next (s.setS b x).advance := rfl

theorem unlessAlias_of {p : Prop} [Decidable p] (h : p) (s : State) (k : Result) :
    unlessAlias p s k = .next (s.enterFault .aliasViolation) := if_pos h

theorem unlessAlias_of_not {p : Prop} [Decidable p] (h : ¬ p) (s : State) (k : Result) : unlessAlias p s k = k := if_neg h

theorem inBuffer_of {x y : Nat} (h : x + y ≤ Config.tbSize) (s : State) (k : Result) : inBuffer x y s k = k :=
  if_neg (by omega)

theorem inBuffer_of_not {x y : Nat} (h : Config.tbSize < x + y) (s : State) (k : Result) :
    inBuffer x y s k = .next (s.enterFault .bufferRange) := if_pos h

theorem unlessZero_of {d : Nat} (h : d ≠ 0) (s : State) (k : Result) : unlessZero d s k = k := if_neg h

theorem unlessZero_zero (s : State) (k : Result) : unlessZero 0 s k = .next (s.enterFault .divisionByZero) := if_pos rfl

/-- What a completed command has written to reach `t` from `s`, before the PC advances. -/
structure Wrote (i : Instr) (s t : State) : Prop where
  v        : ∀ r, r ∉ i.vWrites → t.getV r = s.getV r
  sreg     : ∀ r, r ∉ i.sWrites → t.getS r = s.getS r
  tb       : i.writesText = false → t.tb = s.tb
  tbWf     : Memory.wf s.tb → Memory.wf t.tb
  tbBelow  : Memory.below Config.tbSize s.tb → Memory.below Config.tbSize t.tb
  fits     : s.regsFit → t.regsFit
  pc       : t.pc = s.pc
  seq      : t.seq = s.seq
  cause    : t.cause = s.cause
  cm       : t.cm = s.cm
  cmDraw   : t.cmDraw = s.cmDraw
  tbDraw   : t.tbDraw = s.tbDraw
  draws    : t.draws = s.draws
  turns    : t.turns = s.turns
  hostData : t.hostData = s.hostData

/-- What a command can do. -/
inductive Did (i : Instr) (s : State) : Result → Prop where
  | faulted (c : Cause) (hc : c ≠ .none) : Did i s (.next (s.enterFault c))
  | halted (h : i = .halt) : Did i s (.next s.halt)
  | completed (t : State) (h : i ≠ .halt) (w : Wrote i s t) : Did i s (.next t.advance)

theorem State.regsFit_setV {s : State} (h : s.regsFit) (a : VIdx) {r : VReg} (hr : r.len ≤ Config.cap) :
    (s.setV a r).regsFit := by
  intro j
  rw [State.getV_setV]
  split
  · exact hr
  · exact h j

theorem Wrote.nothing (i : Instr) (s : State) : Wrote i s s := by
  constructor <;> intros <;> first | rfl | assumption

theorem Wrote.setV {i : Instr} {s t : State} (w : Wrote i s t) {a : VIdx} {r : VReg} (ha : a ∈ i.vWrites)
    (hr : s.regsFit → r.len ≤ Config.cap) : Wrote i s (t.setV a r) where
  v j hj := by rw [State.getV_setV_ne t r (ne_of_mem_of_not_mem ha hj).symm, w.v j hj]
  sreg := w.sreg
  tb := w.tb
  tbWf := w.tbWf
  tbBelow := w.tbBelow
  fits h := State.regsFit_setV (w.fits h) a (hr h)
  pc := w.pc
  seq := w.seq
  cause := w.cause
  cm := w.cm
  cmDraw := w.cmDraw
  tbDraw := w.tbDraw
  draws := w.draws
  turns := w.turns
  hostData := w.hostData

theorem Wrote.setS {i : Instr} {s t : State} (w : Wrote i s t) {b : SIdx} {x : Scalar} (hb : b ∈ i.sWrites) :
    Wrote i s (t.setS b x) where
  v := w.v
  sreg j hj := by rw [State.getS_setS_ne t x (ne_of_mem_of_not_mem hb hj).symm, w.sreg j hj]
  tb := w.tb
  tbWf := w.tbWf
  tbBelow := w.tbBelow
  fits := w.fits
  pc := w.pc
  seq := w.seq
  cause := w.cause
  cm := w.cm
  cmDraw := w.cmDraw
  tbDraw := w.tbDraw
  draws := w.draws
  turns := w.turns
  hostData := w.hostData

theorem Wrote.memWrite {i : Instr} {s t : State} (w : Wrote i s t) {a : Nat} {xs : List Byte}
    (hi : i.writesText = true) (ha : a + xs.length ≤ Config.tbSize) : Wrote i s (t.memWrite a xs) where
  v := w.v
  sreg := w.sreg
  tb h := by simp [hi] at h
  tbWf h := Memory.wf_setAll (w.tbWf h) a xs
  tbBelow h := Memory.below_setAll (w.tbBelow h) xs ha
  fits := w.fits
  pc := w.pc
  seq := w.seq
  cause := w.cause
  cm := w.cm
  cmDraw := w.cmDraw
  tbDraw := w.tbDraw
  draws := w.draws
  turns := w.turns
  hostData := w.hostData

theorem Did.raised {i : Instr} {s : State} {c : Cause} (hc : c ≠ .none) : Did i s (raise c s) := .faulted c hc

theorem Did.writeV {i : Instr} {s : State} {a : VIdx} {r : Option VReg} (hi : i ≠ .halt) (ha : a ∈ i.vWrites)
    (hr : ∀ x, r = some x → s.regsFit → x.len ≤ Config.cap) : Did i s (writeV a r s) := by
  cases r with
  | none => exact .faulted _ (by decide)
  | some x => exact .completed _ hi ((Wrote.nothing i s).setV ha (hr x rfl))

theorem Did.writeS {i : Instr} {s t : State} {b : SIdx} {x : Scalar} (hi : i ≠ .halt) (hb : b ∈ i.sWrites)
    (w : Wrote i s t) : Did i s (writeS b x t) := .completed _ hi (w.setS hb)

theorem Did.unlessAlias {i : Instr} {s : State} {k : Result} {p : Prop} [Decidable p] (h : Did i s k) :
    Did i s (unlessAlias p s k) := by
  unfold Machine.unlessAlias
  split
  · exact .raised (by decide)
  · exact h

theorem Did.inBuffer {i : Instr} {s : State} {k : Result} {x y : Nat} (h : x + y ≤ Config.tbSize → Did i s k) :
    Did i s (inBuffer x y s k) := by
  unfold Machine.inBuffer
  split
  · exact .raised (by decide)
  · next hxy => exact h (by omega)

theorem Did.unlessZero {i : Instr} {s : State} {k : Result} {d : Nat} (h : Did i s k) : Did i s (unlessZero d s k) := by
  unfold Machine.unlessZero
  split
  · exact .raised (by decide)
  · exact h

theorem Did.storeText {i : Instr} {s : State} {t : List Byte} {c : Byte} {b : SIdx} {x y : Nat} (hi : i ≠ .halt)
    (hb : b ∈ i.sWrites) (ht : i.writesText = true) (hxy : x + y ≤ Config.tbSize) : Did i s (storeText t c b x y s) := by
  unfold Machine.storeText
  split
  · exact .writeS hi hb (.nothing i s)
  · exact .writeS hi hb ((Wrote.nothing i s).memWrite ht (by simp; omega))

theorem norm_fits {x : Nat} : ∀ r, norm x = some r → ∀ s : State, s.regsFit → r.len ≤ Config.cap := fun r h _ _ => by
  obtain ⟨_, _, hl, hc⟩ := norm_eq_some h
  omega

theorem plus_len_le {r t : VReg} {n y : Nat} (h : r.plus n y = some t) (hr : r.len ≤ Config.cap) (hn : n ≤ Config.cap) :
    t.len ≤ Config.cap := by
  unfold VReg.plus at h
  split at h
  · cases h; rw [len_pack]; omega
  · split at h
    · cases h
    · cases h; rw [len_pack]; omega

theorem shiftUp_len_le {r t : VReg} {n : Nat} (h : r.shiftUp n = some t) (hr : r.len ≤ Config.cap) : t.len ≤ Config.cap := by
  unfold VReg.shiftUp at h
  split at h
  · cases h; exact hr
  · split at h
    · cases h
    · cases h
      simp only [VReg.len, List.length_append, List.length_replicate] at *
      omega

theorem Did.subtract {i : Instr} {s : State} {a : VIdx} {x y : Nat} (hi : i ≠ .halt) (ha : a ∈ i.vWrites) :
    Did i s (subtract a x y s) := by
  unfold Machine.subtract
  split
  · exact .raised (by decide)
  · exact .writeV hi ha fun r h hs => norm_fits r h s hs

theorem length_pairBytes (t : List Byte) : (pairBytes t).length = t.length / 2 := by
  induction t using pairBytes.induct with
  | case1 h l rest ih => simp only [pairBytes, List.length_cons, ih]; omega
  | case2 t h =>
    match t with
    | [] => rfl
    | [_] => simp [pairBytes]
    | a :: b :: r => exact absurd rfl (h a b r)

theorem length_of_valid {t : List Byte} (h : valid t = true) : t.length = 5 + 2 * cnt t := by
  simp only [valid, Bool.and_eq_true, decide_eq_true_eq] at h
  exact h.1.2

theorem len_parsed {t : List Byte} (h : valid t = true) : (parsed t).len = cnt t := by
  have := length_of_valid h
  simp only [parsed, VReg.len, length_pairBytes, List.length_drop]
  omega

theorem Did.loadText {i : Instr} {s : State} {t : List Byte} {a : VIdx} {b : SIdx} (hi : i ≠ .halt)
    (ha : a ∈ i.vWrites) (hb : b ∈ i.sWrites) : Did i s (loadText t a b s) := by
  unfold Machine.loadText
  split
  · exact .writeS hi hb (.nothing i s)
  · next hv =>
    split
    · exact .raised (by decide)
    · next hc =>
      refine .writeS hi hb ((Wrote.nothing i s).setV ha fun _ => ?_)
      have := len_parsed (by simpa using hv)
      have := (parsed t).len_trim_le
      omega

theorem Did.writeTwo {i : Instr} {s : State} {a b : VIdx} {q r : Option VReg} (hi : i ≠ .halt) (ha : a ∈ i.vWrites)
    (hb : b ∈ i.vWrites) (hq : ∀ x, q = some x → x.len ≤ Config.cap) (hr : ∀ x, r = some x → x.len ≤ Config.cap) :
    Did i s (writeTwo a b q r s) := by
  cases q with
  | none => exact .raised (by decide)
  | some q =>
    cases r with
    | none => exact .raised (by decide)
    | some r =>
      exact .completed _ hi (((Wrote.nothing i s).setV ha fun _ => hq q rfl).setV hb fun _ => hr r rfl)

/-- What a command can do, for every command: the one inversion lemma of exec. -/
theorem exec_did (i : Instr) (s : State) : Did i s (exec i s) := by
  have fit {a : VIdx} (h : s.regsFit) : (s.getV a).len ≤ Config.cap := h a
  have one : byteLen 1 ≤ Config.cap := by decide
  cases i with
  | halt => exact .halted rfl
  | init a n =>
    refine .writeV (by simp) (by simp [Instr.vWrites]) fun x h _ => ?_
    split at h
    · cases h
    · cases h; simp only [VReg.len, List.length_replicate]; omega
  | grow a =>
    refine .writeV (by simp) (by simp [Instr.vWrites]) fun x h _ => ?_
    split at h
    · cases h
    · cases h; simp only [VReg.len, List.length_append, List.length_singleton] at *; omega
  | trim a =>
    exact .completed _ (by simp) ((Wrote.nothing _ s).setV (by simp [Instr.vWrites])
      fun h => Nat.le_trans (VReg.len_trim_le _) (fit h))
  | setb a k y =>
    show Did _ s (execSetb a k y s)
    unfold execSetb
    split
    · exact .completed _ (by simp) ((Wrote.nothing _ s).setV (by simp [Instr.vWrites])
        fun h => by simpa [VReg.len] using fit (a := a) h)
    · exact .completed _ (by simp) (.nothing _ s)
  | getb a b y => exact .writeS (by simp) (by simp [Instr.sWrites]) (.nothing _ s)
  | numb a b => exact .writeS (by simp) (by simp [Instr.sWrites]) (.nothing _ s)
  | store a b x y => exact .inBuffer fun h => .storeText (by simp) (by simp [Instr.sWrites]) rfl h
  | b10st a b x y => exact .inBuffer fun h => .storeText (by simp) (by simp [Instr.sWrites]) rfl h
  | load a b x y => exact .inBuffer fun _ => .loadText (by simp) (by simp [Instr.vWrites]) (by simp [Instr.sWrites])
  | bufsz a b => exact .writeS (by simp) (by simp [Instr.sWrites]) (.nothing _ s)
  | cmp a b c => exact .writeS (by simp) (by simp [Instr.sWrites]) (.nothing _ s)
  | lt a b c => exact .writeS (by simp) (by simp [Instr.sWrites]) (.nothing _ s)
  | le a b c => exact .writeS (by simp) (by simp [Instr.sWrites]) (.nothing _ s)
  | eq a b c => exact .writeS (by simp) (by simp [Instr.sWrites]) (.nothing _ s)
  | clone a c =>
    exact .unlessAlias (.completed _ (by simp) ((Wrote.nothing _ s).setV (by simp [Instr.vWrites]) fit))
  | add a c =>
    exact .unlessAlias (.writeV (by simp) (by simp [Instr.vWrites]) fun x h hs => plus_len_le h (fit hs) (fit hs))
  | addb a y =>
    refine .writeV (by simp) (by simp [Instr.vWrites]) fun x h hs => plus_len_le h (fit hs) ?_
    exact Nat.le_trans (by unfold byteLen; split <;> simp) one
  | inc a => exact .writeV (by simp) (by simp [Instr.vWrites]) fun x h hs => plus_len_le h (fit hs) one
  | bshi a => exact .writeV (by simp) (by simp [Instr.vWrites]) fun x h hs => shiftUp_len_le h (fit hs)
  | bshd a b =>
    exact .writeS (by simp) (by simp [Instr.sWrites]) ((Wrote.nothing _ s).setV (by simp [Instr.vWrites])
      fun h => Nat.le_trans (VReg.shiftDown_spec _ _).2.2 (fit h))
  | mbshi a y => exact .writeV (by simp) (by simp [Instr.vWrites]) fun x h hs => shiftUp_len_le h (fit hs)
  | mbshd a y =>
    exact .completed _ (by simp) ((Wrote.nothing _ s).setV (by simp [Instr.vWrites])
      fun h => Nat.le_trans (VReg.shiftDown_spec _ _).2.2 (fit h))
  | sub a c => exact .unlessAlias (.subtract (by simp) (by simp [Instr.vWrites]))
  | dec a => exact .subtract (by simp) (by simp [Instr.vWrites])
  | mul a c => exact .unlessAlias (.writeV (by simp) (by simp [Instr.vWrites]) fun x h hs => norm_fits x h s hs)
  | div a b c d =>
    exact .unlessAlias (.unlessZero (.writeTwo (by simp) (by simp [Instr.vWrites]) (by simp [Instr.vWrites])
      (fun x h => by have := norm_eq_some h; omega) (fun x h => by have := norm_eq_some h; omega)))
  | mod b c d =>
    exact .unlessAlias (.unlessZero (.writeV (by simp) (by simp [Instr.vWrites]) fun x h hs => norm_fits x h s hs))
  | sqrt a c => exact .unlessAlias (.writeV (by simp) (by simp [Instr.vWrites]) fun x h hs => norm_fits x h s hs)

end Sys2Proof.Machine
end

