-- ==== Sys2Proof/Laws/PerInstr.lean ====
section
/-! SUPPORT. Statements about every command, one lemma per constructor of Instr. Family EncodeRow: the word the encoder makes of
a well-formed command is selected by the command's row of the opcode table (R107). -/

namespace Sys2Proof.Laws.EncodeRow

/-- The mnemonic of a command (R107). -/
def mnemonicOf : Instr → String
  | .halt => "HALT"
  | .init _ _ => "INIT"
  | .grow _ => "GROW"
  | .trim _ => "TRIM"
  | .setb _ _ _ => "SETB"
  | .getb _ _ _ => "GETB"
  | .numb _ _ => "NUMB"
  | .store _ _ _ _ => "STORE"
  | .b10st _ _ _ _ => "B10ST"
  | .load _ _ _ _ => "LOAD"
  | .bufsz _ _ => "BUFSZ"
  | .cmp _ _ _ => "CMP"
  | .lt _ _ _ => "LT"
  | .le _ _ _ => "LE"
  | .eq _ _ _ => "EQ"
  | .clone _ _ => "CLONE"
  | .add _ _ => "ADD"
  | .addb _ _ => "ADDB"
  | .inc _ => "INC"
  | .bshi _ => "BSHI"
  | .bshd _ _ => "BSHD"
  | .mbshi _ _ => "MBSHI"
  | .mbshd _ _ => "MBSHD"
  | .sub _ _ => "SUB"
  | .dec _ => "DEC"
  | .mul _ _ => "MUL"
  | .div _ _ _ _ => "DIV"
  | .mod _ _ _ => "MOD"
  | .sqrt _ _ => "SQRT"

/-- The row named by the command's mnemonic selects the command's word. -/
def Statement (i : Instr) : Prop :=
  i.wellFormed = true → ∃ r ∈ opcodeTable, r.mnemonic = mnemonicOf i ∧ r.selects (encode i) = true

/-- From the row's place in the table to the statement. -/
theorem at_row {i : Instr} (n : Nat) (hn : n < opcodeTable.length) (hm : opcodeTable[n].mnemonic = mnemonicOf i)
    (h : i.wellFormed = true → encode i &&& opcodeTable[n].mask = opcodeTable[n].pattern) : Statement i := fun hw =>
  ⟨opcodeTable[n], List.getElem_mem hn, hm, by simpa [Row.selects] using h hw⟩

theorem halt : Statement (.halt) :=
  at_row 0 (by decide) rfl fun _ => by decide

theorem init (a : Fin 16) (n : Nat) : Statement (.init a n) :=
  at_row 1 (by decide) rfl fun h =>
  formatI_and_mask (by decide) (by simpa [Instr.wellFormed, fitsByte] using h)
    (by decide) (.inr (by decide)) (.inl rfl) (.inl rfl) (.inr (by decide))

theorem grow (a : Fin 16) : Statement (.grow a) :=
  at_row 2 (by decide) rfl fun _ => formatR_and_mask (by decide) (.inr (by decide)) (.inl rfl) (.inl rfl) (.inl rfl)

theorem trim (a : Fin 16) : Statement (.trim a) :=
  at_row 3 (by decide) rfl fun _ => formatR_and_mask (by decide) (.inr (by decide)) (.inl rfl) (.inl rfl) (.inl rfl)

theorem setb (a : Fin 16) (k : Nat) (y : Nat) : Statement (.setb a k y) :=
  at_row 4 (by decide) rfl fun h =>
  formatS_and_mask (by simp [Instr.wellFormed, fitsByte, fitsK] at h; omega) (by simp [Instr.wellFormed, fitsByte, fitsK] at h; omega)
    (by decide) (.inr (by decide)) (.inr (by decide)) (.inr (by decide))

theorem getb (a : Fin 16) (b : Fin 16) (y : Nat) : Statement (.getb a b y) :=
  at_row 5 (by decide) rfl fun h =>
  formatI_and_mask (by decide) (by simpa [Instr.wellFormed, fitsByte] using h)
    (by decide) (.inr (by decide)) (.inr (by decide)) (.inl rfl) (.inr (by decide))

theorem numb (a : Fin 16) (b : Fin 16) : Statement (.numb a b) :=
  at_row 6 (by decide) rfl fun _ => formatR_and_mask (by decide) (.inr (by decide)) (.inr (by decide)) (.inl rfl) (.inl rfl)

theorem store (a : Fin 16) (b : Fin 16) (x : Nat) (y : Nat) : Statement (.store a b x y) :=
  at_row 7 (by decide) rfl fun h =>
  formatI_and_mask (by simp [Instr.wellFormed, fitsByte] at h; omega) (by simp [Instr.wellFormed, fitsByte] at h; omega)
    (by decide) (.inr (by decide)) (.inr (by decide)) (.inr (by decide)) (.inr (by decide))

theorem b10st (a : Fin 16) (b : Fin 16) (x : Nat) (y : Nat) : Statement (.b10st a b x y) :=
  at_row 8 (by decide) rfl fun h =>
  formatI_and_mask (by simp [Instr.wellFormed, fitsByte] at h; omega) (by simp [Instr.wellFormed, fitsByte] at h; omega)
    (by decide) (.inr (by decide)) (.inr (by decide)) (.inr (by decide)) (.inr (by decide))

theorem load (a : Fin 16) (b : Fin 16) (x : Nat) (y : Nat) : Statement (.load a b x y) :=
  at_row 9 (by decide) rfl fun h =>
  formatI_and_mask (by simp [Instr.wellFormed, fitsByte] at h; omega) (by simp [Instr.wellFormed, fitsByte] at h; omega)
    (by decide) (.inr (by decide)) (.inr (by decide)) (.inr (by decide)) (.inr (by decide))

theorem bufsz (a : Fin 16) (b : Fin 16) : Statement (.bufsz a b) :=
  at_row 10 (by decide) rfl fun _ => formatR_and_mask (by decide) (.inr (by decide)) (.inr (by decide)) (.inl rfl) (.inl rfl)

theorem cmp (a : Fin 16) (b : Fin 16) (c : Fin 16) : Statement (.cmp a b c) :=
  at_row 11 (by decide) rfl fun _ => formatR_and_mask (by decide) (.inr (by decide)) (.inr (by decide)) (.inr (by decide)) (.inl rfl)

theorem lt (a : Fin 16) (b : Fin 16) (c : Fin 16) : Statement (.lt a b c) :=
  at_row 12 (by decide) rfl fun _ => formatR_and_mask (by decide) (.inr (by decide)) (.inr (by decide)) (.inr (by decide)) (.inl rfl)

theorem le (a : Fin 16) (b : Fin 16) (c : Fin 16) : Statement (.le a b c) :=
  at_row 13 (by decide) rfl fun _ => formatR_and_mask (by decide) (.inr (by decide)) (.inr (by decide)) (.inr (by decide)) (.inl rfl)

theorem eq (a : Fin 16) (b : Fin 16) (c : Fin 16) : Statement (.eq a b c) :=
  at_row 14 (by decide) rfl fun _ => formatR_and_mask (by decide) (.inr (by decide)) (.inr (by decide)) (.inr (by decide)) (.inl rfl)

theorem clone (a : Fin 16) (c : Fin 16) : Statement (.clone a c) :=
  at_row 15 (by decide) rfl fun _ => formatR_and_mask (by decide) (.inr (by decide)) (.inl rfl) (.inr (by decide)) (.inl rfl)

theorem add (a : Fin 16) (c : Fin 16) : Statement (.add a c) :=
  at_row 16 (by decide) rfl fun _ => formatR_and_mask (by decide) (.inr (by decide)) (.inl rfl) (.inr (by decide)) (.inl rfl)

theorem addb (a : Fin 16) (y : Nat) : Statement (.addb a y) :=
  at_row 17 (by decide) rfl fun h =>
  formatI_and_mask (by decide) (by simpa [Instr.wellFormed, fitsByte] using h)
    (by decide) (.inr (by decide)) (.inl rfl) (.inl rfl) (.inr (by decide))

theorem inc (a : Fin 16) : Statement (.inc a) :=
  at_row 18 (by decide) rfl fun _ => formatR_and_mask (by decide) (.inr (by decide)) (.inl rfl) (.inl rfl) (.inl rfl)

theorem bshi (a : Fin 16) : Statement (.bshi a) :=
  at_row 19 (by decide) rfl fun _ => formatR_and_mask (by decide) (.inr (by decide)) (.inl rfl) (.inl rfl) (.inl rfl)

theorem bshd (a : Fin 16) (b : Fin 16) : Statement (.bshd a b) :=
  at_row 20 (by decide) rfl fun _ => formatR_and_mask (by decide) (.inr (by decide)) (.inr (by decide)) (.inl rfl) (.inl rfl)

theorem mbshi (a : Fin 16) (y : Nat) : Statement (.mbshi a y) :=
  at_row 21 (by decide) rfl fun h =>
  formatI_and_mask (by decide) (by simpa [Instr.wellFormed, fitsByte] using h)
    (by decide) (.inr (by decide)) (.inl rfl) (.inl rfl) (.inr (by decide))

theorem mbshd (a : Fin 16) (y : Nat) : Statement (.mbshd a y) :=
  at_row 22 (by decide) rfl fun h =>
  formatI_and_mask (by decide) (by simpa [Instr.wellFormed, fitsByte] using h)
    (by decide) (.inr (by decide)) (.inl rfl) (.inl rfl) (.inr (by decide))

theorem sub (a : Fin 16) (c : Fin 16) : Statement (.sub a c) :=
  at_row 23 (by decide) rfl fun _ => formatR_and_mask (by decide) (.inr (by decide)) (.inl rfl) (.inr (by decide)) (.inl rfl)

theorem dec (a : Fin 16) : Statement (.dec a) :=
  at_row 24 (by decide) rfl fun _ => formatR_and_mask (by decide) (.inr (by decide)) (.inl rfl) (.inl rfl) (.inl rfl)

theorem mul (a : Fin 16) (c : Fin 16) : Statement (.mul a c) :=
  at_row 25 (by decide) rfl fun _ => formatR_and_mask (by decide) (.inr (by decide)) (.inl rfl) (.inr (by decide)) (.inl rfl)

theorem div (a : Fin 16) (b : Fin 16) (c : Fin 16) (d : Fin 16) : Statement (.div a b c d) :=
  at_row 26 (by decide) rfl fun _ => formatR_and_mask (by decide) (.inr (by decide)) (.inr (by decide)) (.inr (by decide)) (.inr (by decide))

theorem mod (b : Fin 16) (c : Fin 16) (d : Fin 16) : Statement (.mod b c d) :=
  at_row 27 (by decide) rfl fun _ => formatR_and_mask (by decide) (.inl rfl) (.inr (by decide)) (.inr (by decide)) (.inr (by decide))

theorem sqrt (a : Fin 16) (c : Fin 16) : Statement (.sqrt a c) :=
  at_row 28 (by decide) rfl fun _ => formatR_and_mask (by decide) (.inr (by decide)) (.inl rfl) (.inr (by decide)) (.inl rfl)

end Sys2Proof.Laws.EncodeRow
end

