-- ==== Sys2Proof/Laws/Step.lean ====
section
/-! SUPPORT. What a step is on each agent's turn: the fields of the state whose turn is taken, the sequencer's cases, and the
host's accesses at a bus address. -/

namespace Sys2Proof.Machine

variable (s : State)

@[simp] theorem State.afterTurn_v : s.afterTurn.v = s.v := rfl
@[simp] theorem State.afterTurn_sreg : s.afterTurn.sreg = s.sreg := rfl
@[simp] theorem State.afterTurn_pc : s.afterTurn.pc = s.pc := rfl
@[simp] theorem State.afterTurn_seq : s.afterTurn.seq = s.seq := rfl
@[simp] theorem State.afterTurn_cause : s.afterTurn.cause = s.cause := rfl
@[simp] theorem State.afterTurn_cm : s.afterTurn.cm = s.cm := rfl
@[simp] theorem State.afterTurn_cmDraw : s.afterTurn.cmDraw = s.cmDraw := rfl
@[simp] theorem State.afterTurn_tb : s.afterTurn.tb = s.tb := rfl
@[simp] theorem State.afterTurn_tbDraw : s.afterTurn.tbDraw = s.tbDraw := rfl
@[simp] theorem State.afterTurn_draws : s.afterTurn.draws = s.draws := rfl
@[simp] theorem State.afterTurn_hostData : s.afterTurn.hostData = s.hostData := rfl
@[simp] theorem State.afterTurn_turns : s.afterTurn.turns = s.turns.tail := rfl
@[simp] theorem State.getV_afterTurn (i : VIdx) : s.afterTurn.getV i = s.getV i := rfl
@[simp] theorem State.getS_afterTurn (i : SIdx) : s.afterTurn.getS i = s.getS i := rfl
@[simp] theorem State.cmWord_afterTurn (k : Nat) : s.afterTurn.cmWord k = s.cmWord k := rfl
@[simp] theorem State.tbByte_afterTurn (a : Nat) : s.afterTurn.tbByte a = s.tbByte a := rfl

variable {s}

/-- With no turn listed, taking the turn leaves the state as it is. -/
theorem State.afterTurn_of_nil (h : s.turns = []) : s.afterTurn = s := by
  cases s
  simp only at h
  subst h
  rfl

/-- On the sequencer's turn a step is the sequencer's (R81, R290). -/
theorem step_of_sequencerMoves (h : s.sequencerMoves) : step s = sequencerTurn s.afterTurn := by
  rcases h with h | h
  · rw [State.afterTurn_of_nil h, step, h]
    rfl
  · obtain ⟨ts, hts⟩ : ∃ ts, s.turns = .sequencer :: ts := by
      cases ht : s.turns with
      | nil => simp [ht] at h
      | cons t ts => exact ⟨ts, by simpa [ht] using h⟩
    rw [step, hts, State.afterTurn, hts]
    rfl

/-- Any other turn is the oldest one of the list. -/
theorem step_of_turn {t : Turn} {ts : List Turn} (h : s.turns = t :: ts) : step s = takeTurn t s.afterTurn := by
  rw [step, h, State.afterTurn, h]
  rfl

/-- It is the sequencer's turn, or another agent's turn is the oldest. -/
theorem sequencerMoves_or (s : State) : s.sequencerMoves ∨ ∃ t ts, s.turns = t :: ts ∧ t ≠ .sequencer := by
  cases h : s.turns with
  | nil => exact .inl (.inl h)
  | cons t ts =>
    by_cases ht : t = .sequencer
    · exact .inl (.inr (by simp [h, ht]))
    · exact .inr ⟨t, ts, rfl, ht⟩

/-- Outside RUNNING the sequencer takes no step (R38). -/
theorem sequencerTurn_of_stopped (h : s.seq ≠ .running) : sequencerTurn s = .next s := if_pos h

/-- FETCH_RANGE (R307). -/
theorem sequencerTurn_of_range (h : s.seq = .running) (hp : Config.cmSize ≤ s.pc.toNat) :
    sequencerTurn s = .next (s.enterFault .fetchRange) := by
  rw [sequencerTurn, if_neg (by simp [h]), if_pos hp]
  rfl

/-- ILLEGAL_COMMAND (R306). -/
theorem sequencerTurn_of_illegal (h : s.seq = .running) (hp : s.pc.toNat < Config.cmSize)
    (hd : decode (s.cmWord s.pc.toNat) = none) : sequencerTurn s = .next (s.enterFault .illegalCommand) := by
  rw [sequencerTurn, if_neg (by simp [h]), if_neg (by omega), runWord, hd]
  rfl

/-- The decoded command runs (R290). -/
theorem sequencerTurn_of_decoded {i : Instr} (h : s.seq = .running) (hp : s.pc.toNat < Config.cmSize)
    (hd : decode (s.cmWord s.pc.toNat) = some i) : sequencerTurn s = exec i s := by
  rw [sequencerTurn, if_neg (by simp [h]), if_neg (by omega), runWord, hd]

/-- What the sequencer's turn can be: nothing, one of the two faults before a command runs, or a command. -/
theorem sequencerTurn_cases (s : State) :
    (s.seq ≠ .running ∧ sequencerTurn s = .next s) ∨
    (s.seq = .running ∧ Config.cmSize ≤ s.pc.toNat ∧ sequencerTurn s = .next (s.enterFault .fetchRange)) ∨
    (s.seq = .running ∧ s.pc.toNat < Config.cmSize ∧ decode (s.cmWord s.pc.toNat) = none ∧
      sequencerTurn s = .next (s.enterFault .illegalCommand)) ∨
    (∃ i, s.seq = .running ∧ s.pc.toNat < Config.cmSize ∧ decode (s.cmWord s.pc.toNat) = some i ∧
      sequencerTurn s = exec i s) := by
  by_cases h : s.seq = .running
  · rcases Nat.lt_or_ge s.pc.toNat Config.cmSize with hp | hp
    · cases hd : decode (s.cmWord s.pc.toNat) with
      | none => exact .inr (.inr (.inl ⟨h, hp, rfl, sequencerTurn_of_illegal h hp hd⟩))
      | some i => exact .inr (.inr (.inr ⟨i, h, hp, rfl, sequencerTurn_of_decoded h hp hd⟩))
    · exact .inr (.inl ⟨h, hp, sequencerTurn_of_range h hp⟩)
  · exact .inl ⟨h, sequencerTurn_of_stopped h⟩

/-- The offset of an address above HOST_BASE (R320). -/
@[simp] theorem hostOffset_add (o : Nat) : hostOffset (Config.hostBase + o) = some o := by
  rw [hostOffset, if_pos (by omega), Nat.add_sub_cancel_left]

@[simp] theorem State.hostRead_add (s : State) (o : Nat) :
    s.hostRead (Config.hostBase + o) = s.hostReadReg (hostReg o) := by
  simp [State.hostRead]

@[simp] theorem State.hostWrite_add (s : State) (o : Nat) (d : Word) :
    s.hostWrite (Config.hostBase + o) d = s.hostWriteReg d (hostReg o) := by
  simp [State.hostWrite]

/-- A host read of a register that is not hidden now (R321). -/
theorem State.hostReadReg_of_seen {r : HostReg} (h : r.hiddenWhileRunning = false ∨ s.seq ≠ .running) :
    s.hostReadReg r = { s with hostData := s.regWord r } := by
  refine if_neg ?_
  rcases h with h | h <;> simp [h]

/-- A host read of a hidden register (R330). -/
theorem State.hostReadReg_of_hidden {r : HostReg} (h : r.hiddenWhileRunning = true) (hr : s.seq = .running) :
    s.hostReadReg r = { s with hostData := Config.drawnRead s.draws, draws := s.draws + 1 } := if_pos (by simp [h, hr])

/-- A host read leaves everything but the data and the number of the next draw (R321). -/
theorem State.hostReadReg_frame (s : State) (r : HostReg) :
    ∃ data n, s.hostReadReg r = { s with hostData := data, draws := n } ∧ s.draws ≤ n := by
  unfold State.hostReadReg
  split
  · exact ⟨_, _, rfl, by omega⟩
  · exact ⟨_, _, rfl, Nat.le_refl _⟩

/-- The offset map on its scalar window: offset 0x40 + 4i names S_i (R320). -/
theorem hostReg_scalar (i : SIdx) : hostReg (0x0040 + 4 * i.val) = .scalar i := by
  have hi := i.isLt
  unfold hostReg hostRegAligned
  split_ifs <;> first
    | exact congrArg HostReg.scalar (Fin.ext (by simp only [Fin.val_ofNat]; omega))
    | omega

/-- The offset map on its command window: offset 0x1000 + 4k names CM_k (R320). -/
theorem hostReg_cm {k : Nat} (h : k < 256) : hostReg (0x1000 + 4 * k) = .cm k := by
  unfold hostReg hostRegAligned
  split_ifs <;> first
    | exact congrArg HostReg.cm (by omega)
    | omega

/-- The offset map on its text window: offset 0x2000 + 4k names TB_k (R320). -/
theorem hostReg_tb {k : Nat} (h : k < 64) : hostReg (0x2000 + 4 * k) = .tb k := by
  unfold hostReg hostRegAligned
  split_ifs <;> first
    | exact congrArg HostReg.tb (by omega)
    | omega

/-- A host read of an offset answers the register's word, unless R330 hides it. -/
theorem hostReads_of_seen {s : State} {o : Nat} (h : (hostReg o).hiddenWhileRunning = false ∨ s.seq ≠ .running) :
    hostReads s o (s.regWord (hostReg o)) := by
  unfold hostReads
  rw [step_of_turn (t := .hostRead (Config.hostBase + o)) (ts := []) rfl]
  simp only [takeTurn, State.hostRead_add]
  rw [State.hostReadReg_of_seen (by exact h)]
  cases hostReg o <;> rfl

/-- A host write to an offset does what the register's write does. -/
theorem hostWrites_of_reg (s : State) (o : Nat) (data : Word) : hostWrites s o data (s.hostWriteReg data (hostReg o)) := by
  unfold hostWrites
  rw [step_of_turn (t := .hostWrite (Config.hostBase + o) data) (ts := []) rfl]
  simp only [takeTurn, State.hostWrite_add]
  cases hostReg o with
  | ctrl =>
    simp only [State.hostWriteReg, State.writeCtrl, State.softReset, State.start, State.afterTurn]
    cases data.getLsbD 1 <;> cases data.getLsbD 0 <;> by_cases hr : s.seq = .running <;> simp [hr]
  | pc => by_cases hr : s.seq = .running <;> simp [State.hostWriteReg, State.whenStopped, State.afterTurn, hr]
  | cm k => by_cases hr : s.seq = .running <;> simp [State.hostWriteReg, State.whenStopped, State.afterTurn, State.setCm, hr]
  | tb k =>
    by_cases hr : s.seq = .running <;> simp [State.hostWriteReg, State.whenStopped, State.afterTurn, State.memWrite, hr]
  | _ => rfl

end Sys2Proof.Machine
end

