-- ==== Sys2Proof/Laws/Text.lean ====
section
/-! SUPPORT. The text formats: the canonical text is valid and reads back as the register it was made of, and the decimal text
reads back as the value. -/

namespace Sys2Proof.Machine

theorem isHexU_hexDigit {n : Nat} (h : n < 16) : isHexU (hexDigit n) = true := by
  have : ∀ n : Fin 16, isHexU (hexDigit n) = true := by decide
  exact this ⟨n, h⟩

theorem hexval_hexDigit {n : Nat} (h : n < 16) : hexval (hexDigit n) = n := by
  have : ∀ n : Fin 16, hexval (hexDigit n) = n := by decide
  exact this ⟨n, h⟩

@[simp] theorem length_hex2 (n : Nat) : (hex2 n).length = 2 := rfl

@[simp] theorem length_hexPairs (bs : List Byte) : (hexPairs bs).length = 2 * bs.length := by
  induction bs with
  | nil => rfl
  | cons b bs ih => simp only [hexPairs, List.flatMap_cons, List.length_append, length_hex2, List.length_cons] at *; omega

/-- The canonical text has 5 + 2·len characters (R160, R161). -/
@[simp] theorem length_canon (r : VReg) : (canon r).length = bsize r := by
  simp only [canon, List.length_append, length_hex2, List.length_singleton, length_hexPairs, bsize, VReg.len]

theorem hexPairs_cons (b : Byte) (bs : List Byte) :
    hexPairs (b :: bs) = hexDigit (b.toNat / 16) :: hexDigit (b.toNat % 16) :: hexPairs bs := rfl

/-- Reading the pairs back gives the bytes. -/
@[simp] theorem pairBytes_hexPairs (bs : List Byte) : pairBytes (hexPairs bs) = bs := by
  induction bs with
  | nil => rfl
  | cons b bs ih =>
    have := b.isLt
    rw [hexPairs_cons, pairBytes, ih, hexval_hexDigit (by omega), hexval_hexDigit (by omega)]
    congr 1
    exact BitVec.eq_of_toNat_eq (by simp only [BitVec.toNat_ofNat]; omega)

theorem all_isHexU_hexPairs (bs : List Byte) : (hexPairs bs).all isHexU = true := by
  induction bs with
  | nil => rfl
  | cons b bs ih =>
    have := b.isLt
    rw [hexPairs_cons, List.all_cons, List.all_cons, ih, isHexU_hexDigit (by omega), isHexU_hexDigit (by omega)]
    rfl

/-- The canonical text, character by character up to the separator (R160). -/
theorem canon_eq (r : VReg) :
    canon r = hexDigit (r.len % 256 / 16) :: hexDigit (r.len % 256 % 16) :: hexDigit (r.len / 256 / 16)
      :: hexDigit (r.len / 256 % 16) :: underscore :: hexPairs r.bytes := rfl

/-- The count read from the canonical text is the length (R160, R162). -/
theorem cnt_canon {r : VReg} (h : r.len < 65536) : cnt (canon r) = r.len := by
  rw [canon_eq]
  simp only [cnt, List.getD_cons_zero, List.getD_cons_succ]
  rw [hexval_hexDigit (by omega), hexval_hexDigit (by omega), hexval_hexDigit (by omega), hexval_hexDigit (by omega)]
  omega

/-- The canonical text is a text LOAD accepts (R162). -/
theorem valid_canon {r : VReg} (h : r.len < 65536) : valid (canon r) = true := by
  have hl := length_canon r
  have hc := cnt_canon h
  rw [canon_eq] at *
  simp only [valid, hl, hc, bsize, List.drop_succ_cons, List.drop_zero, List.take_succ_cons, List.take_zero, List.all_cons,
    List.all_nil, List.getD_cons_zero, List.getD_cons_succ, all_isHexU_hexPairs]
  rw [isHexU_hexDigit (by omega), isHexU_hexDigit (by omega), isHexU_hexDigit (by omega), isHexU_hexDigit (by omega)]
  simp

/-- Parsing the canonical text gives the register (R168). -/
@[simp] theorem parsed_canon (r : VReg) : parsed (canon r) = r := by
  rw [canon_eq]
  simp only [parsed, List.drop_succ_cons, List.drop_zero, pairBytes_hexPairs]

/-- The character of a decimal digit. -/
theorem toNat_digit {d : Nat} (h : d < 10) : (BitVec.ofNat 8 (0x30 + d)).toNat = 0x30 + d := by
  rw [BitVec.toNat_ofNat]
  omega

/-- What the digit loop puts in front of `acc`: digits that read as x after any leading value, with no leading zero unless
there is one digit, and no more of them than the fuel. -/
theorem decDigits_spec (fuel x : Nat) (acc : List Byte) (h : x < 10 ^ (fuel + 1)) :
    ∃ ds : List Byte, decDigits (fuel + 1) x acc = ds ++ acc ∧ ds ≠ []
      ∧ (∀ c ∈ ds, 0x30 ≤ c.toNat ∧ c.toNat ≤ 0x39)
      ∧ (∀ v, ds.foldl (fun n c => 10 * n + (c.toNat - 0x30)) v = v * 10 ^ ds.length + x)
      ∧ (ds.length = 1 ∨ ds.headD 0#8 ≠ 0x30#8)
      ∧ (ds.length = 1 ∨ 10 ^ (ds.length - 1) ≤ x) := by
  induction fuel generalizing x acc with
  | zero =>
    have hx : x < 10 := by simpa using h
    refine ⟨[BitVec.ofNat 8 (0x30 + x)], ?_, by simp, ?_, ?_, .inl rfl, .inl rfl⟩
    · simp [decDigits, hx]
    · intro c hc
      rw [List.mem_singleton.mp hc, toNat_digit hx]
      omega
    · intro v
      simp only [List.foldl_cons, List.foldl_nil, List.length_singleton, toNat_digit hx]
      omega
  | succ fuel ih =>
    by_cases hx : x < 10
    · refine ⟨[BitVec.ofNat 8 (0x30 + x)], ?_, by simp, ?_, ?_, .inl rfl, .inl rfl⟩
      · simp [decDigits, hx]
      · intro c hc
        rw [List.mem_singleton.mp hc, toNat_digit hx]
        omega
      · intro v
        simp only [List.foldl_cons, List.foldl_nil, List.length_singleton, toNat_digit hx]
        omega
    · have hx10 : x / 10 < 10 ^ (fuel + 1) := by
        rw [Nat.div_lt_iff_lt_mul (by omega), ← Nat.pow_succ]; exact h
      obtain ⟨ds, heq, hne, hdig, hval, hhead, hlen⟩ := ih (x / 10) (BitVec.ofNat 8 (0x30 + x % 10) :: acc) hx10
      have hm : x % 10 < 10 := by omega
      have hpos : 0 < ds.length := List.length_pos_iff.mpr hne
      refine ⟨ds ++ [BitVec.ofNat 8 (0x30 + x % 10)], ?_, by simp, ?_, ?_, .inr ?_, .inr ?_⟩
      · rw [decDigits, if_neg hx, heq, List.append_assoc]; rfl
      · intro c hc
        rcases List.mem_append.mp hc with hc | hc
        · exact hdig c hc
        · rw [List.mem_singleton.mp hc, toNat_digit hm]
          omega
      · intro v
        rw [List.foldl_append, hval]
        simp only [List.foldl_cons, List.foldl_nil, List.length_append, List.length_singleton, toNat_digit hm,
          Nat.pow_succ]
        have : v * (10 ^ ds.length * 10) = 10 * (v * 10 ^ ds.length) := by ring
        omega
      · obtain ⟨c, cs, rfl⟩ := List.exists_cons_of_ne_nil hne
        rcases hhead with h1 | h1
        · have hnil : cs = [] := List.length_eq_zero_iff.mp (by simpa using h1)
          subst hnil
          have := hval 0
          have hc := hdig c List.mem_cons_self
          simp only [List.foldl_cons, List.foldl_nil, Nat.zero_mul, Nat.mul_zero, Nat.zero_add] at this
          simp only [List.cons_append, List.headD_cons]
          intro hz
          rw [hz] at this
          simp at this
          omega
        · simpa using h1
      · rw [List.length_append, List.length_singleton, Nat.add_sub_cancel]
        rcases hlen with h1 | h1
        · rw [h1]; omega
        · obtain ⟨k, hk⟩ : ∃ k, ds.length = k + 1 := ⟨ds.length - 1, by omega⟩
          rw [hk, Nat.add_sub_cancel] at h1
          rw [hk, Nat.pow_succ]
          omega

/-- The decimal text: digits that read as x, no leading zero unless it is one digit, and no more digits than x needs (R165). -/
theorem dec_spec (x : Nat) :
    dec x ≠ [] ∧ (∀ c ∈ dec x, 0x30 ≤ c.toNat ∧ c.toNat ≤ 0x39)
      ∧ (dec x).foldl (fun n c => 10 * n + (c.toNat - 0x30)) 0 = x
      ∧ ((dec x).length = 1 ∨ (dec x).headD 0#8 ≠ 0x30#8)
      ∧ ((dec x).length = 1 ∨ 10 ^ ((dec x).length - 1) ≤ x) := by
  have hx : x < 10 ^ (Nat.log2 x + 1) := by
    rcases Nat.eq_zero_or_pos x with rfl | h
    · simp
    · exact Nat.lt_of_lt_of_le ((Nat.log2_lt (by omega)).mp (Nat.lt_succ_self _)) (Nat.pow_le_pow_left (by omega) _)
  obtain ⟨ds, heq, h1, h2, h3, h4, h5⟩ := decDigits_spec (Nat.log2 x) x [] hx
  rw [List.append_nil] at heq
  rw [dec, heq]
  exact ⟨h1, h2, by simpa using h3 0, h4, h5⟩

end Sys2Proof.Machine
end

