-- ==== Sys2Proof/Tests/Slice0.lean ====
section
/-! SUPPORT. Tests, all on values from the spec: the checks of WellFormed, the encoding of every command (R107, R115 and the words
of 95_test_vectors.md), one step per derived vector V<n> of 95_test_vectors.md, and for every statement with hypotheses a state
and operands that meet them, at the ends of their ranges. -/

namespace Sys2Proof.Tests

open Sys2Proof Sys2Proof.Machine

/-- The state a step answers. -/
def next (r : Result) (s : State) : State :=
  match r with
  | .next t => t
  | .fault _ => s
  | .refused _ => s

/-- The state after the command word `w` runs as the next step from `s`. -/
def after (w : Word) (s : State) : State :=
  next (step (s.withFetchWord 32 w.toNat)) s

/-- The state after the command `i`. -/
def did (i : Instr) (s : State) : State := next (exec i s) s

theorem exec_next (i : Instr) (s : State) : exec i s = .next (did i s) := by
  have h := exec_did i s
  unfold did
  generalize exec i s = r at h ⊢
  cases h <;> rfl

/-- Power-on reset with the sequencer started. -/
def run : State := { State.reset with seq := .running }

/-- A running state about to fetch `w` at `pc`. -/
def fetching (w : Word) (pc : BitVec 9) : State := { run with pc := pc, cm := [(pc.toNat, w)] }

/-- V1 and V2 set. -/
def two (x y : List Byte) (s : State := run) : State := (s.setV 1 ⟨x⟩).setV 2 ⟨y⟩

/-- The register content `n` times `b`. -/
def fill (n : Nat) (b : Byte) : List Byte := List.replicate n b

/-- A text from its character codes, as TB holds it at 0. -/
def text (t : List Byte) (s : State := run) : State := s.memWrite 0 t

/-- What a fault leaves to see. -/
def faultSeen (s : State) : SeqState × Cause × BitVec 9 := (s.seq, s.cause, s.pc)

/-- "0300_BC0007" (E3). -/
def textE3 : List Byte := [0x30, 0x33, 0x30, 0x30, 0x5F, 0x42, 0x43, 0x30, 0x30, 0x30, 0x37]

/-! ### WellFormed -/

theorem test_wf_init_count : (Instr.init 0 256).wellFormed = false := by decide
theorem test_wf_setb_value : (Instr.setb 0 4096 0).wellFormed = false := by decide
theorem test_wf_setb_index : (Instr.setb 0 0 256).wellFormed = false := by decide
theorem test_wf_getb_index : (Instr.getb 0 0 256).wellFormed = false := by decide
theorem test_wf_store_addr : (Instr.store 0 0 256 0).wellFormed = false := by decide
theorem test_wf_store_cap : (Instr.store 0 0 0 256).wellFormed = false := by decide
theorem test_wf_b10st_addr : (Instr.b10st 0 0 256 0).wellFormed = false := by decide
theorem test_wf_b10st_cap : (Instr.b10st 0 0 0 256).wellFormed = false := by decide
theorem test_wf_load_addr : (Instr.load 0 0 256 0).wellFormed = false := by decide
theorem test_wf_load_len : (Instr.load 0 0 0 256).wellFormed = false := by decide
theorem test_wf_addb_value : (Instr.addb 0 256).wellFormed = false := by decide
theorem test_wf_mbshi_count : (Instr.mbshi 0 256).wellFormed = false := by decide
theorem test_wf_mbshd_count : (Instr.mbshd 0 256).wellFormed = false := by decide
theorem test_wf_limits : (Instr.setb 15 4095 255).wellFormed = true ∧ (Instr.store 15 15 255 255).wellFormed = true := by decide

/-! ### Encoding: words written out from R101 to R107 and R115 -/

theorem test_word_halt : decode 0x01000000 = some (.halt) ∧ encode (.halt) = 0x01000000 := by decide
theorem test_word_init : decode 0x10100003 = some (.init 1 3) ∧ encode (.init 1 3) = 0x10100003 := by decide
theorem test_word_grow : decode 0x11100000 = some (.grow 1) ∧ encode (.grow 1) = 0x11100000 := by decide
theorem test_word_trim : decode 0x12100000 = some (.trim 1) ∧ encode (.trim 1) = 0x12100000 := by decide
theorem test_word_setb : decode 0x13110000 = some (.setb 1 256 0) ∧ encode (.setb 1 256 0) = 0x13110000 := by decide
theorem test_word_getb : decode 0x14020002 = some (.getb 0 2 2) ∧ encode (.getb 0 2 2) = 0x14020002 := by decide
theorem test_word_numb : decode 0x15140000 = some (.numb 1 4) ∧ encode (.numb 1 4) = 0x15140000 := by decide
theorem test_word_store : decode 0x20101042 = some (.store 1 0 0x10 66) ∧ encode (.store 1 0 0x10 66) = 0x20101042 := by decide
theorem test_word_b10st : decode 0x21322008 = some (.b10st 3 2 0x20 8) ∧ encode (.b10st 3 2 0x20 8) = 0x21322008 := by decide
theorem test_word_load : decode 0x2213000B = some (.load 1 3 0 11) ∧ encode (.load 1 3 0 11) = 0x2213000B := by decide
theorem test_word_bufsz : decode 0x23150000 = some (.bufsz 1 5) ∧ encode (.bufsz 1 5) = 0x23150000 := by decide
theorem test_word_cmp : decode 0x30234000 = some (.cmp 2 3 4) ∧ encode (.cmp 2 3 4) = 0x30234000 := by decide
theorem test_word_lt : decode 0x31234000 = some (.lt 2 3 4) ∧ encode (.lt 2 3 4) = 0x31234000 := by decide
theorem test_word_le : decode 0x32234000 = some (.le 2 3 4) ∧ encode (.le 2 3 4) = 0x32234000 := by decide
theorem test_word_eq : decode 0x33341000 = some (.eq 3 4 1) ∧ encode (.eq 3 4 1) = 0x33341000 := by decide
theorem test_word_clone : decode 0x34302000 = some (.clone 3 2) ∧ encode (.clone 3 2) = 0x34302000 := by decide
theorem test_word_add : decode 0x40102000 = some (.add 1 2) ∧ encode (.add 1 2) = 0x40102000 := by decide
theorem test_word_addb : decode 0x411000FF = some (.addb 1 255) ∧ encode (.addb 1 255) = 0x411000FF := by decide
theorem test_word_inc : decode 0x42100000 = some (.inc 1) ∧ encode (.inc 1) = 0x42100000 := by decide
theorem test_word_bshi : decode 0x43100000 = some (.bshi 1) ∧ encode (.bshi 1) = 0x43100000 := by decide
theorem test_word_bshd : decode 0x44120000 = some (.bshd 1 2) ∧ encode (.bshd 1 2) = 0x44120000 := by decide
theorem test_word_mbshi : decode 0x4510001D = some (.mbshi 1 29) ∧ encode (.mbshi 1 29) = 0x4510001D := by decide
theorem test_word_mbshd : decode 0x46100005 = some (.mbshd 1 5) ∧ encode (.mbshd 1 5) = 0x46100005 := by decide
theorem test_word_sub : decode 0x50102000 = some (.sub 1 2) ∧ encode (.sub 1 2) = 0x50102000 := by decide
theorem test_word_dec : decode 0x51100000 = some (.dec 1) ∧ encode (.dec 1) = 0x51100000 := by decide
theorem test_word_mul : decode 0x60302000 = some (.mul 3 2) ∧ encode (.mul 3 2) = 0x60302000 := by decide
theorem test_word_div : decode 0x70341200 = some (.div 3 4 1 2) ∧ encode (.div 3 4 1 2) = 0x70341200 := by decide
theorem test_word_mod : decode 0x71041200 = some (.mod 4 1 2) ∧ encode (.mod 4 1 2) = 0x71041200 := by decide
theorem test_word_sqrt : decode 0x80201000 = some (.sqrt 2 1) ∧ encode (.sqrt 2 1) = 0x80201000 := by decide

/-- V137 to V142, V144, V145: illegal words. -/
theorem test_illegal_words :
    [0x00000000, 0x01000001, 0xFF000000, 0x40112000, 0x34111000, 0x10100105, 0x02000000, 0x47000000].map decode
      = List.replicate 8 none := by decide

theorem test_table_rows : opcodeTable.length = 29 ∧ opcodeTable.Pairwise (fun r t => opcodeOf r.pattern ≠ opcodeOf t.pattern) := by
  decide

theorem test_table_word_of_host : decodeTableWord 32 0x70341200 = some (.div 3 4 1 2) := by decide

/-- R322. -/
theorem test_caps_word : capsWord = 0x0088441E := by decide

/-- The cause codes of R301, in its table's order. -/
theorem test_cause_codes :
    [Cause.none, .capacityExceeded, .underflow, .divisionByZero, .aliasViolation, .illegalCommand, .bufferRange, .fetchRange].map
      Cause.code = [0, 1, 2, 3, 4, 5, 6, 7] := by decide

/-! ### One step per vector of 95_test_vectors.md -/

theorem test_v136_halt : faultSeen (after 0x01000000 run) = (.halted, .none, 0) := by decide
theorem test_v137_illegal : faultSeen (after 0x00000000 run) = (.faulted, .illegalCommand, 0) := by decide
theorem test_v1_init : (after 0x10100003 run).getV 1 = ⟨[0, 0, 0]⟩ ∧ (after 0x10100003 run).pc = 1 := by decide
theorem test_v3_init : faultSeen (after 0x1010001F run) = (.faulted, .capacityExceeded, 0) := by decide
theorem test_v5_grow : (after 0x11100000 (two [0x0C, 0x63] [])).getV 1 = ⟨[0x0C, 0x63, 0]⟩ ∧ (after 0x11100000 (two [0x0C, 0x63] [])).pc = 1 := by decide
theorem test_v7_grow : faultSeen (after 0x11100000 (two (fill 30 0xFF) [])) = (.faulted, .capacityExceeded, 0) := by decide
theorem test_v8_trim : (after 0x12100000 (two [5, 0, 0] [])).getV 1 = ⟨[5]⟩ ∧ (after 0x12100000 (two [5, 0, 0] [])).pc = 1 := by decide
theorem test_v9_trim : (after 0x12100000 (two [0, 0, 0] [])).getV 1 = ⟨[]⟩ ∧ (after 0x12100000 (two [0, 0, 0] [])).pc = 1 := by decide
theorem test_v12_setb : (after 0x13110000 (two [0, 0, 0] [])).getV 1 = ⟨[0, 0, 0]⟩ ∧ (after 0x13110000 (two [0, 0, 0] [])).pc = 1 := by decide
theorem test_v14_setb : (after 0x13100002 (two [0xBC, 0, 7] [])).getV 1 = ⟨[0xBC, 0, 0]⟩ ∧ (after 0x13100002 (two [0xBC, 0, 7] [])).pc = 1 := by decide
theorem test_v15_getb : (after 0x14100002 (two [0xBC, 0, 7] [])).getS 0 = 7 ∧ (after 0x14100002 (two [0xBC, 0, 7] [])).pc = 1 := by decide
theorem test_v16_getb : (after 0x14100003 ((two [0xBC, 0, 7] []).setS 0 5)).getS 0 = 0 ∧ (after 0x14100003 ((two [0xBC, 0, 7] []).setS 0 5)).pc = 1 := by decide
theorem test_v19_numb : (after 0x15100000 (two [0, 0] [])).getS 0 = 2 ∧ (after 0x15100000 (two [0, 0] [])).pc = 1 := by decide
theorem test_v25_store : (after 0x2010F60A (two [0x0C, 0x63] [])).memRead 0xF6 10
    = [0x30, 0x32, 0x30, 0x30, 0x5F, 0x30, 0x43, 0x36, 0x33, 0x00] := by decide
theorem test_v21_store : (after 0x20100009 ((two [0x0C, 0x63] []).setS 0 7)).getS 0 = 0 ∧ (after 0x20100009 (two [0x0C, 0x63] [])).tb = [] := by decide
theorem test_v28_b10st : (after 0x21214010 (two [] [0x5F, 0xF2, 0x78, 0x98])).memRead 0x40 11
    = [0x32, 0x35, 0x35, 0x38, 0x30, 0x36, 0x33, 0x31, 0x39, 0x39, 0x00] := by decide
theorem test_v30_b10st : (after 0x21010001 (run.setS 1 7)).getS 1 = 0 ∧ (after 0x21010001 run).tb = [] := by decide
theorem test_v34_load : (after 0x2210000B (text textE3)).getV 1 = ⟨[0xBC, 0, 7]⟩ ∧ (after 0x2210000B (text textE3)).getS 0 = 1 := by decide
theorem test_v37_load : let s := (two [5] [] (text [0x30, 0x32, 0x30, 0x30, 0x5F, 0x30, 0x63, 0x36, 0x33])).setS 0 7
    (after 0x22100009 s).getV 1 = ⟨[5]⟩ ∧ (after 0x22100009 s).getS 0 = 0 := by decide
theorem test_v45_bufsz : (after 0x23100000 (two [0xBC, 0, 7] [])).getS 0 = 0x000B ∧ (after 0x23100000 (two [0xBC, 0, 7] [])).pc = 1 := by decide
theorem test_v49_cmp : (after 0x30102000 (two [0, 1] [0xFF, 0])).getS 0 = 0xFFFF ∧ (after 0x30102000 (two [0, 1] [0xFF, 0])).pc = 1 := by decide
theorem test_v48_cmp : (after 0x30102000 (two [5] [0, 1])).getS 0 = 0x0001 ∧ (after 0x30102000 (two [5] [0, 1])).pc = 1 := by decide
theorem test_v52_lt : (after 0x31102000 (two [5] [0, 1])).getS 0 = 1 ∧ (after 0x31102000 (two [5] [0, 1])).pc = 1 := by decide
theorem test_v53_lt : (after 0x31102000 ((two [0, 1] [5]).setS 0 9)).getS 0 = 0 ∧ (after 0x31102000 ((two [0, 1] [5]).setS 0 9)).pc = 1 := by decide
theorem test_v54_le : (after 0x32102000 (two [5] [5])).getS 0 = 1 ∧ (after 0x32102000 (two [5] [5])).pc = 1 := by decide
theorem test_v55_le : (after 0x32102000 ((two [0, 1] [5]).setS 0 9)).getS 0 = 0 ∧ (after 0x32102000 ((two [0, 1] [5]).setS 0 9)).pc = 1 := by decide
theorem test_v56_eq : (after 0x33102000 (two [5] [5])).getS 0 = 1 ∧ (after 0x33102000 (two [5] [5])).pc = 1 := by decide
theorem test_v57_eq : (after 0x33102000 ((two [5] [6]).setS 0 9)).getS 0 = 0 ∧ (after 0x33102000 ((two [5] [6]).setS 0 9)).pc = 1 := by decide
theorem test_v58_clone : (after 0x34201000 (two [0xBC, 0, 0] [])).getV 2 = ⟨[0xBC, 0, 0]⟩ ∧ (after 0x34201000 (two [0xBC, 0, 0] [])).pc = 1 := by decide
theorem test_v59_clone : faultSeen (after 0x34101000 (two [5] [])) = (.faulted, .aliasViolation, 0) := by decide
theorem test_v60_add : (after 0x40102000 (two [0xFF, 0xFF, 0xFF] [2])).getV 1 = ⟨[1, 0, 0, 1]⟩ ∧ (after 0x40102000 (two [0xFF, 0xFF, 0xFF] [2])).pc = 1 := by decide
theorem test_v63_add : (after 0x40102000 (two [1, 0, 0] [1])).getV 1 = ⟨[2, 0, 0]⟩ ∧ (after 0x40102000 (two [1, 0, 0] [1])).pc = 1 := by decide
theorem test_v65_addb : (after 0x411000FF (two [1] [])).getV 1 = ⟨[0, 1]⟩ ∧ (after 0x411000FF (two [1] [])).pc = 1 := by decide
theorem test_v66_addb : (after 0x41100000 run).getV 1 = ⟨[]⟩ ∧ (after 0x41100000 run).pc = 1 := by decide
theorem test_v68_inc : (after 0x42100000 (two [0xFF, 0xFF] [])).getV 1 = ⟨[0, 0, 1]⟩ ∧ (after 0x42100000 (two [0xFF, 0xFF] [])).pc = 1 := by decide
theorem test_v69_inc : (after 0x42100000 run).getV 1 = ⟨[1]⟩ ∧ (after 0x42100000 run).pc = 1 := by decide
theorem test_v70_bshi : (after 0x43100000 (two [0x0C, 0x63] [])).getV 1 = ⟨[0, 0x0C, 0x63]⟩ ∧ (after 0x43100000 (two [0x0C, 0x63] [])).pc = 1 := by decide
theorem test_v71_bshi : (after 0x43100000 (two [0, 0] [])).getV 1 = ⟨[0, 0]⟩ ∧ (after 0x43100000 (two [0, 0] [])).pc = 1 := by decide
theorem test_v73_bshd : (after 0x44100000 (two [0xBC, 0, 7] [])).getV 1 = ⟨[0, 7]⟩ ∧ (after 0x44100000 (two [0xBC, 0, 7] [])).getS 0 = 0xBC := by decide
theorem test_v75_bshd : (after 0x44100000 (run.setS 0 9)).getS 0 = 0 ∧ (after 0x44100000 (run.setS 0 9)).pc = 1 := by decide
theorem test_v79_mbshi : faultSeen (after 0x4510001D (two [0, 1] [])) = (.faulted, .capacityExceeded, 0) := by decide
theorem test_v80_mbshi : (after 0x4510001C (two [0, 1] [])).getV 1 = ⟨fill 29 0 ++ [1]⟩ ∧ (after 0x4510001C (two [0, 1] [])).pc = 1 := by decide
theorem test_v83_mbshd : (after 0x46100000 (two [5, 0, 0] [])).getV 1 = ⟨[5]⟩ ∧ (after 0x46100000 (two [5, 0, 0] [])).pc = 1 := by decide
theorem test_v81_mbshd : (after 0x46100002 (two [0x5F, 0xF2, 0x78, 0x98] [])).getV 1 = ⟨[0x78, 0x98]⟩ ∧ (after 0x46100002 (two [0x5F, 0xF2, 0x78, 0x98] [])).pc = 1 := by decide
theorem test_v86_sub : (after 0x50102000 (two [1, 0, 0, 1] [2])).getV 1 = ⟨[0xFF, 0xFF, 0xFF]⟩ ∧ (after 0x50102000 (two [1, 0, 0, 1] [2])).pc = 1 := by decide
theorem test_v88_sub : faultSeen (after 0x50102000 (two [5] [6])) = (.faulted, .underflow, 0) := by decide
theorem test_v91_dec : (after 0x51100000 (two [0, 0, 1] [])).getV 1 = ⟨[0xFF, 0xFF]⟩ ∧ (after 0x51100000 (two [0, 0, 1] [])).pc = 1 := by decide
theorem test_v94_dec : faultSeen (after 0x51100000 (two [0, 0] [])) = (.faulted, .underflow, 0) := by decide
theorem test_v98_mul : (after 0x60102000 (two (fill 15 0 ++ [1]) (fill 14 0 ++ [1]))).getV 1 = ⟨fill 29 0 ++ [1]⟩ ∧ (after 0x60102000 (two (fill 15 0 ++ [1]) (fill 14 0 ++ [1]))).pc = 1 := by decide
theorem test_v99_mul : faultSeen (after 0x60102000 (two (fill 15 0 ++ [1]) (fill 15 0 ++ [1]))) = (.faulted, .capacityExceeded, 0) := by decide
theorem test_v103_div : let s := two [0x5F, 0xF2, 0x78, 0x98] [0x31, 0x7F]
    (after 0x70341200 s).getV 3 = ⟨[0xE2, 0x32, 0x01]⟩ ∧ (after 0x70341200 s).getV 4 = ⟨[0x1D, 0x17]⟩ := by decide
theorem test_v113_div : faultSeen (after 0x70321200 (two [5] [])) = (.faulted, .aliasViolation, 0) := by decide
theorem test_v115_mod : (after 0x71041200 (two [0x5F, 0xF2, 0x78, 0x98] [0x31, 0x7F])).getV 4 = ⟨[0x1D, 0x17]⟩ ∧ (after 0x71041200 (two [0x5F, 0xF2, 0x78, 0x98] [0x31, 0x7F])).pc = 1 := by decide
theorem test_v116_mod : faultSeen (after 0x71041200 (two [5] [])) = (.faulted, .divisionByZero, 0) := by decide
theorem test_v119_sqrt : (after 0x80201000 (two [0x40, 0x4A, 0x36, 0x54, 0x9F, 0xDF, 0x06] [0x77])).getV 2 = ⟨[0x68, 0x2A, 0x9F, 0x02]⟩ ∧ (after 0x80201000 (two [0x40, 0x4A, 0x36, 0x54, 0x9F, 0xDF, 0x06] [0x77])).pc = 1 := by decide
theorem test_v120_sqrt : (after 0x80201000 (two [0x41, 0x4A, 0x36, 0x54, 0x9F, 0xDF, 0x06] [0x77])).getV 2 = ⟨[0x69, 0x2A, 0x9F, 0x02]⟩ ∧ (after 0x80201000 (two [0x41, 0x4A, 0x36, 0x54, 0x9F, 0xDF, 0x06] [0x77])).pc = 1 := by decide

/-- R307: a fetch at PC = 256 faults and leaves PC there. -/
theorem test_fetch_range : faultSeen (next (step { run with pc := 256 }) run) = (.faulted, .fetchRange, 256) := by decide

/-- R317: outside RUNNING the sequencer takes no step. -/
theorem test_idle_takes_no_step : step State.reset = .next State.reset := rfl

/-! ### Witnesses: for every statement with hypotheses, states and operands that meet them -/

/-- Every register full. -/
def full : State := two (fill 30 0xFF) (fill 30 0xFF)

theorem witness_DecodeOfEncode : (Instr.setb 15 4095 255).wellFormed = true := by decide

theorem witness_EncodeOfDecode : decode 0x13FFFFFF = some (.setb 15 4095 255) ∧ decode 0x01000000 = some .halt := by decide

theorem witness_DecodeIsTheUniqueMatchingRow :
    (∃ r ∈ opcodeTable, (0x13FFFFFF : Word) &&& r.mask = r.pattern) ∧
    (∀ r ∈ opcodeTable, (0x00000000 : Word) &&& r.mask ≠ r.pattern) := by decide

theorem witness_StepRunsDecodedCommand :
    (fetching 0x40102000 255).sequencerMoves ∧ (fetching 0x40102000 255).seq = .running ∧
    (fetching 0x40102000 255).pc.toNat < Config.cmSize ∧
    decode ((fetching 0x40102000 255).cmWord (fetching 0x40102000 255).pc.toNat) = some (.add 1 2) :=
  ⟨.inl rfl, rfl, by decide, by decide⟩

theorem witness_FetchOutOfRangeFaults_fetch :
    ({ run with pc := 256 } : State).sequencerMoves ∧ Config.cmSize ≤ ({ run with pc := 256 } : State).pc.toNat ∧
    ({ run with pc := 511 } : State).sequencerMoves ∧ Config.cmSize ≤ ({ run with pc := 511 } : State).pc.toNat :=
  ⟨.inl rfl, by decide, .inl rfl, by decide⟩

theorem witness_FetchOutOfRangeFaults_end :
    (fetching 0x11100000 255).seq = .running ∧ (fetching 0x11100000 255).pc = 255 ∧
    exec (.grow 1) (fetching 0x11100000 255) = .next (did (.grow 1) (fetching 0x11100000 255)) ∧
    (did (.grow 1) (fetching 0x11100000 255)).seq = .running :=
  ⟨rfl, rfl, exec_next _ _, by decide⟩

theorem witness_IllegalWordFaults_opcode :
    (fetching 0x00000000 0).sequencerMoves ∧ (fetching 0x00000000 0).pc.toNat < Config.cmSize ∧
    ∀ r ∈ opcodeTable, opcodeOf ((fetching 0x00000000 0).cmWord (fetching 0x00000000 0).pc.toNat) ≠ opcodeOf r.pattern :=
  ⟨.inl rfl, by decide, by decide⟩

theorem witness_IllegalWordFaults_bits :
    (fetching 0x34111000 255).sequencerMoves ∧ (fetching 0x34111000 255).pc.toNat < Config.cmSize ∧
    ∃ r ∈ opcodeTable, opcodeOf ((fetching 0x34111000 255).cmWord (fetching 0x34111000 255).pc.toNat) = opcodeOf r.pattern ∧
      (fetching 0x34111000 255).cmWord (fetching 0x34111000 255).pc.toNat &&& r.mask ≠ r.pattern :=
  ⟨.inl rfl, by decide, by decide⟩

theorem witness_StateChangesOnlyAsListed_stopped : State.reset.sequencerMoves ∧ State.reset.seq ≠ .running :=
  ⟨.inl rfl, by decide⟩

theorem witness_StateChangesOnlyAsListed_halts :
    step (fetching 0x01000000 0) = .next (next (step (fetching 0x01000000 0)) run) ∧
    (next (step (fetching 0x01000000 0)) run).seq ≠ .running := ⟨rfl, by decide⟩

theorem witness_StateChangesOnlyAsListed_faults :
    step (fetching 0x00000000 0) = .next (next (step (fetching 0x00000000 0)) run) ∧
    (next (step (fetching 0x00000000 0)) run).seq ≠ .running := ⟨rfl, by decide⟩

theorem witness_StateChangesOnlyAsListed_resets :
    step { run with turns := [.hostWrite (Config.hostBase + 8) 2] }
      = .next { run.hostWriteReg 2 (hostReg 8) with turns := [] } ∧
    (run.hostWriteReg 2 (hostReg 8)).seq ≠ .running := ⟨hostWrites_of_reg run 8 2, by decide⟩

theorem witness_StateChangesOnlyAsListed_starts :
    step { State.reset with turns := [.hostWrite (Config.hostBase + 8) 1] }
      = .next { State.reset.hostWriteReg 1 (hostReg 8) with turns := [] } ∧
    (State.reset.hostWriteReg 1 (hostReg 8)).seq = .running := ⟨hostWrites_of_reg State.reset 8 1, by decide⟩

theorem witness_RunEndsWithinCommandMemory : run.turns = [] ∧ run.seq = .running := ⟨rfl, rfl⟩

theorem witness_PcAdvancesOnCompletionOnly :
    run.seq = .running ∧ exec (.grow 1) { run with pc := 255 } = .next (did (.grow 1) { run with pc := 255 }) ∧
    (did (.grow 1) { run with pc := 255 }).seq = .running ∧ (did .halt run).seq = .halted ∧
    (did (.dec 1) run).seq = .faulted := ⟨rfl, exec_next _ _, by decide⟩

/-- A state with listed memory that meets the invariant. -/
def started : State := { two (fill 30 0xFF) [1] (fetching 0x40102000 0) with tb := [(0, 0x30), (255, 0x00)] }

theorem started_inv : started.Inv where
  regsFit := by show ∀ i, (started.getV i).len ≤ Config.cap; decide
  cmWf := by decide
  cmBelow := by decide
  tbWf := by decide
  tbBelow := by decide
  causeSet := by decide
  cmDrawn := by decide
  tbDrawn := by decide

theorem witness_StepKeepsTheInvariant : started.Inv ∧ step started = .next (next (step started) started) :=
  ⟨started_inv, rfl⟩

theorem witness_FaultsArePrecise :
    started.sequencerMoves ∧ started.seq = .running ∧ step started = .next (next (step started) started) ∧
    (next (step started) started).seq = .faulted := ⟨.inl rfl, rfl, rfl, by decide⟩

theorem witness_CommandsWriteOnlyWhatTheirRowsName :
    exec (.div 3 4 1 2) started = .next (did (.div 3 4 1 2) started) ∧ (5 : VIdx) ∉ (Instr.div 3 4 1 2).vWrites ∧
    (0 : SIdx) ∉ (Instr.div 3 4 1 2).sWrites ∧ (Instr.div 3 4 1 2).writesText = false := ⟨exec_next _ _, by decide⟩

theorem witness_UnreadRegistersDoNotMatter :
    (3 : VIdx) ∉ (Instr.add 1 2).vReads ∧ (3 : VIdx) ∉ (Instr.add 1 2).vWrites ∧
    exec (.add 1 2) started = .next (did (.add 1 2) started) := ⟨by decide, by decide, exec_next _ _⟩

theorem witness_TrimmedResults_always :
    exec (.sub 1 2) (two [5, 0] [5]) = .next (did (.sub 1 2) (two [5, 0] [5])) ∧
    (did (.sub 1 2) (two [5, 0] [5])).seq = .running ∧
    (did (.load 1 0 0 11) (text textE3)).getS 0 = 1 ∧ (did (.load 1 0 0 11) (text textE3)).seq = .running :=
  ⟨exec_next _ _, by decide⟩

theorem witness_TrimmedResults_from_trimmed :
    (Instr.addb 1 255).wellFormed = true ∧ exec (.addb 1 255) (two [1] []) = .next (did (.addb 1 255) (two [1] [])) ∧
    (did (.addb 1 255) (two [1] [])).seq = .running ∧ ∀ r ∈ (Instr.addb 1 255).vReads, ((two [1] []).getV r).trimmed :=
  ⟨by decide, exec_next _ _, by decide, by decide⟩

theorem witness_TrimmedResults_init : 0 < 1 ∧ 1 ≤ Config.cap ∧ 0 < 30 ∧ 30 ≤ Config.cap := by decide

theorem witness_OnlyStorageCommandsUntrim :
    (Instr.bshi 1).wellFormed = true ∧ (Instr.bshi 1).mayUntrim = false ∧ (two [5] []).allTrimmed ∧
    exec (.bshi 1) (two [5] []) = .next (did (.bshi 1) (two [5] [])) :=
  ⟨by decide, by decide, by show ∀ i, ((two [5] []).getV i).trimmed; decide, exec_next _ _⟩

theorem witness_AliasViolationExactly :
    run.seq = .running ∧ (did (.div 3 4 1 1) (two [5] [])).cause ≠ .aliasViolation ∧
    (did (.div 3 4 1 4) (two [5] [])).cause = .aliasViolation := by decide

theorem witness_BufferRangeExactly :
    run.seq = .running ∧ (did (.store 1 0 0xF6 10) (two [0x0C, 0x63] [])).cause = .none ∧
    (did (.store 1 0 0xF6 11) (two [0x0C, 0x63] [])).cause = .bufferRange := by decide

theorem witness_UnderflowExactly :
    run.seq = .running ∧ (did (.sub 1 2) (two [5] [5])).cause = .none ∧ (did (.sub 1 2) (two [5] [6])).cause = .underflow ∧
    (did (.dec 1) (two [0, 0] [])).cause = .underflow := by decide

theorem witness_DivisionByZeroExactly :
    run.seq = .running ∧ (did (.div 3 4 1 2) (two [5] [0, 0])).cause = .divisionByZero ∧
    (did (.mod 4 1 2) (two [5] [1])).cause = .none := by decide

theorem witness_CapacityExceededExactly :
    full.seq = .running ∧ full.regsFit ∧ (Instr.addb 1 1).wellFormed = true ∧
    (did (.addb 1 1) full).cause = .capacityExceeded ∧ (did (.addb 1 0) full).cause = .none :=
  ⟨rfl, by show ∀ i, (full.getV i).len ≤ Config.cap; decide, by decide⟩

theorem witness_InitMakesZeroBytes : 30 ≤ Config.cap ∧ Config.cap < 31 := by decide

theorem witness_GrowAddsAZeroByte :
    ((two (fill 29 1) []).getV 1).len + 1 ≤ Config.cap ∧ Config.cap < (full.getV 1).len + 1 := by decide

theorem witness_TrimKeepsTheValue : ((two [5] []).getV 1).trimmed := by decide

theorem witness_SetbWritesOneByteOrIgnores :
    (2 < ((two [1, 2, 3] []).getV 1).len ∧ 255 ≤ 255) ∧ ¬ (3 < ((two [1, 2, 3] []).getV 1).len ∧ 255 ≤ 255) ∧
    ¬ (2 < ((two [1, 2, 3] []).getV 1).len ∧ 256 ≤ 255) := by decide

theorem witness_AccessorsWriteTheScalar :
    2 < ((two [1, 2, 3] []).getV 1).len ∧ ((two [1, 2, 3] []).getV 1).len ≤ 3 ∧ (full.getV 1).len ≤ Config.cap := by decide

theorem witness_CanonicalTextForm : 29 < (full.getV 1).len ∧ (full.getV 1).len ≤ Config.cap := by decide

theorem witness_DecimalTextReadsAsTheValue : 0 < 1 ∧ (full.getV 1).len ≤ Config.cap := by decide

theorem witness_StoresWriteTextAndTerminator :
    (0xF6 + 10 ≤ Config.tbSize ∧ (canon ⟨[0x0C, 0x63]⟩).length + 1 ≤ 10) ∧
    (0xF6 + 9 ≤ Config.tbSize ∧ 9 < (canon ⟨[0x0C, 0x63]⟩).length + 1) ∧ Config.tbSize < 0xF6 + 11 ∧
    (255 + 1 ≤ Config.tbSize ∧ 1 < (dec 0).length + 1) ∧ (254 + 2 ≤ Config.tbSize ∧ (dec 0).length + 1 ≤ 2) := by decide

/-- The canonical text of `n` bytes of zero. -/
def zerosText (n : Nat) : List Byte := canon ⟨fill n 0⟩

theorem witness_LoadParsesCanonicalText :
    (191 + 65 ≤ Config.tbSize ∧ valid (zerosText 30) = true ∧ cnt (zerosText 30) ≤ Config.cap ∧ (zerosText 30).length = 65) ∧
    (189 + 67 ≤ Config.tbSize ∧ valid (zerosText 31) = true ∧ Config.cap < cnt (zerosText 31) ∧ (zerosText 31).length = 67) ∧
    (256 + 0 ≤ Config.tbSize ∧ valid [] = false) ∧ Config.tbSize < 192 + 65 := by decide

theorem witness_LoadParsesCanonicalText_region :
    zerosText 30 = (List.range 65).map (fun k => ((run.memWrite 191 (zerosText 30))).tbByte (191 + k)) := by decide

theorem witness_LoadOfStoreIsTheValue :
    full.regsFit ∧ 190 + 66 ≤ Config.tbSize ∧ 6 + 2 * (full.getV 1).len ≤ 66 ∧ (full.getV 1).trimmed :=
  ⟨by show ∀ i, (full.getV i).len ≤ Config.cap; decide, by decide⟩

theorem witness_CmpOrdersByLengthThenBytes :
    ((two [5] [0, 1]).getV 1).len < ((two [5] [0, 1]).getV 2).len ∧
    (((two [0, 1] [0xFF, 0]).getV 1).len = ((two [0, 1] [0xFF, 0]).getV 2).len ∧ 1 < ((two [0, 1] [0xFF, 0]).getV 1).len ∧
      ((two [0, 1] [0xFF, 0]).getV 2).byte 1 < ((two [0, 1] [0xFF, 0]).getV 1).byte 1) ∧
    (two [5] [5]).getV 1 = (two [5] [5]).getV 2 ∧ ((two [5] [0, 1]).getV 1).trimmed ∧ ((two [5] [0, 1]).getV 2).trimmed := by
  decide

theorem witness_ComparisonContract :
    (15 : VIdx) = 15 ∧ (did (.cmp 15 0 15) (run.setS 0 9)).getS 0 = 0 ∧ (two [0, 0] []).getV 1 ≠ (two [0, 0] []).getV 2 := by
  decide

theorem witness_CloneCopiesThePair : (1 : VIdx) ≠ 2 ∧ (15 : VIdx) = 15 := by decide

theorem witness_AddGivesTheExactSum :
    ((two [0xFE] [1]).getV 1).val + ((two [0xFE] [1]).getV 2).val < 256 ^ 1 ∧
    (256 ^ 29 ≤ ((two (fill 29 0xFF) [1]).getV 1).val + ((two (fill 29 0xFF) [1]).getV 2).val ∧ 29 + 1 ≤ Config.cap) ∧
    (256 ^ 30 ≤ ((two (fill 30 0xFF) [1]).getV 1).val + ((two (fill 30 0xFF) [1]).getV 2).val ∧ Config.cap < 30 + 1) := by
  decide

theorem witness_AddbAndIncAddAByte :
    ((two [] []).getV 1).val + 0 < 256 ^ 0 ∧
    (256 ^ 29 ≤ ((two (fill 29 0xFF) []).getV 1).val + 1 ∧ 29 + 1 ≤ Config.cap) ∧
    (256 ^ 30 ≤ ((two (fill 30 0xFF) []).getV 1).val + 255 ∧ Config.cap < 30 + 1) := by decide

theorem witness_ShiftUpMultiplies :
    ((two [0, 0] []).getV 1).val = 0 ∧
    (((two [0, 1] []).getV 1).val ≠ 0 ∧ ((two [0, 1] []).getV 1).len + 28 ≤ Config.cap) ∧
    Config.cap < ((two [0, 1] []).getV 1).len + 29 := by decide

theorem witness_ShiftDownDivides :
    ((two [] []).getV 1).len = 0 ∧ ((two [0, 1] []).getV 1).len ≤ 2 := by decide

theorem witness_SubGivesTheExactDifference :
    ((two [5, 0] [5]).getV 1).len ≤ Config.cap ∧ ((two [5, 0] [5]).getV 2).val ≤ ((two [5, 0] [5]).getV 1).val ∧
    ((two [5] [6]).getV 1).val < ((two [5] [6]).getV 2).val ∧ ((two [1] []).getV 1).val ≠ 0 ∧
    ((two [0] []).getV 1).val = 0 := by decide

theorem witness_SubUndoesAdd :
    (1 : VIdx) ≠ 2 ∧ (two [0xFF] [1]).regsFit ∧ (two [0xFF] [1]).seq = .running ∧
    exec (.add 1 2) (two [0xFF] [1]) = .next (did (.add 1 2) (two [0xFF] [1])) ∧
    (did (.add 1 2) (two [0xFF] [1])).seq = .running ∧ ((two [0xFF] [1]).getV 1).trimmed :=
  ⟨by decide, by show ∀ i, ((two [0xFF] [1]).getV i).len ≤ Config.cap; decide, rfl, exec_next _ _, by decide⟩

theorem witness_MulGivesTheExactProduct :
    ((two (fill 30 0xFF) [1]).getV 1).val * ((two (fill 30 0xFF) [1]).getV 2).val < 256 ^ Config.cap ∧
    256 ^ Config.cap ≤ ((two (fill 15 0 ++ [1]) (fill 15 0 ++ [1])).getV 1).val
      * ((two (fill 15 0 ++ [1]) (fill 15 0 ++ [1])).getV 2).val := by decide

theorem witness_DivGivesQuotientAndRemainder :
    ((3 : VIdx) = 3 ∨ (3 : VIdx) = 1 ∨ (3 : VIdx) = 2 ∨ (3 : VIdx) = 1 ∨ (3 : VIdx) = 2) ∧
    ¬ ((3 : VIdx) = 4 ∨ (3 : VIdx) = 1 ∨ (3 : VIdx) = 2 ∨ (4 : VIdx) = 1 ∨ (4 : VIdx) = 2) ∧
    ((two [5] [0, 0]).getV 2).val = 0 ∧ ((two [5] [1]).getV 2).val ≠ 0 ∧ (full.getV 1).len ≤ Config.cap := by decide

theorem witness_ModGivesTheRemainder :
    ((2 : VIdx) = 1 ∨ (2 : VIdx) = 2) ∧ ¬ ((4 : VIdx) = 1 ∨ (4 : VIdx) = 2) ∧ ((two [5] [0, 0]).getV 2).val = 0 ∧
    ((two [5] [1]).getV 2).val ≠ 0 ∧ (full.getV 1).len ≤ Config.cap := by decide

theorem witness_SqrtGivesTheCeilingRoot :
    (1 : VIdx) ≠ 2 ∧ (full.getV 2).len ≤ Config.cap ∧ ((two [16] []).getV 1).val = 4 * 4 ∧ ((two [] []).getV 1).val = 0 * 0 := by
  decide

theorem witness_SchoolbookMultiplicationIsExact : 255 < 256 := by decide

theorem witness_DivisionEngineIsExact : 0 < 1 := by decide

theorem witness_PowerOnResetValues : ({ run with turns := [.powerOn] } : State).turns = .powerOn :: [] := rfl

theorem witness_SoftResetValues :
    (2 : Word).getLsbD 1 = true ∧ (3 : Word).getLsbD 1 = true ∧ run.seq = .running ∧ State.reset.seq ≠ .running := by decide

theorem witness_CtrlStartsTheSequencer :
    ((1 : Word).getLsbD 1 = false ∧ (1 : Word).getLsbD 0 = true) ∧
    ((0xFFFFFFFC : Word).getLsbD 1 = false ∧ (0xFFFFFFFC : Word).getLsbD 0 = false) ∧ (2 : Word).getLsbD 1 = true ∧
    State.reset.seq ≠ .running ∧ run.seq = .running := by decide

theorem witness_IdentityAndStatusReads :
    State.reset.seq = .idle ∧ run.seq = .running ∧ (did .halt run).seq = .halted ∧ (did (.dec 1) run).seq = .faulted := by
  decide

theorem witness_IdentityAndStatusReads_causes :
    run.cause = .none ∧ (did (.init 1 31) run).cause = .capacityExceeded ∧ (did (.dec 1) run).cause = .underflow ∧
    (did (.mod 4 1 2) run).cause = .divisionByZero ∧ (did (.add 1 1) run).cause = .aliasViolation ∧
    (after 0x00000000 run).cause = .illegalCommand ∧ (did (.load 1 0 255 2) run).cause = .bufferRange ∧
    (next (step { run with pc := 511 }) run).cause = .fetchRange := by decide

theorem witness_HostWindowsReadAndWriteTheState :
    State.reset.seq ≠ .running ∧ run.seq = .running ∧ 255 < 256 ∧ 63 < 64 ∧ (255 < 4 * 63 ∨ 4 * 63 + 4 ≤ 256) := by decide

theorem witness_RunningHidesTheState :
    run.seq = .running ∧ ∀ o ∈ [0x14, 0x17, 0x40, 0x7F, 0x1000, 0x13FF, 0x2000, 0x20FF],
      o / 4 * 4 = 0x0014 ∨ (0x0040 ≤ o ∧ o < 0x0080) ∨ (0x1000 ≤ o ∧ o < 0x1400) ∨ (0x2000 ≤ o ∧ o < 0x2100) := by decide

theorem witness_UnmappedAndReadOnlyOffsets :
    (∀ o ∈ [0x18, 0x3F, 0x80, 0xFFF, 0x1400, 0x1FFF, 0x2100], ¬ (o < 0x0018) ∧ ¬ (0x0040 ≤ o ∧ o < 0x0080) ∧
      ¬ (0x1000 ≤ o ∧ o < 0x1400) ∧ ¬ (0x2000 ≤ o ∧ o < 0x2100)) ∧
    (∀ o ∈ [0x00, 0x07, 0x0C, 0x13, 0x40, 0x7F], o < 0x0008 ∨ (0x000C ≤ o ∧ o < 0x0014) ∨ (0x0040 ≤ o ∧ o < 0x0080)) := by
  decide

theorem witness_HostNeverReachesValueRegisters :
    ∀ o, hostOffset (Config.hostBase + 8) = some o → hostReg o = .ctrl → (1 : Word).getLsbD 1 = false := by
  intro _ _ _
  decide

end Sys2Proof.Tests
end

section
/-! SUPPORT. How a step can change STATE (R38): an access of the host changes it by a write of CTRL alone, a command by HALT or
a fault; from that, the one inversion lemma of `step` on STATE. -/

namespace Sys2Proof.Machine

@[simp] theorem State.softReset_seq (s : State) : s.softReset.seq = .idle := by
  unfold State.softReset
  split <;> rfl

@[simp] theorem State.start_seq (s : State) : s.start.seq = .running := by
  unfold State.start
  split
  · assumption
  · rfl

@[simp] theorem State.powerOn_seq (s : State) : s.powerOn.seq = .idle := rfl

@[simp] theorem State.hostRead_seq (s : State) (addr : Nat) : (s.hostRead addr).seq = s.seq := by
  unfold State.hostRead
  split
  · rfl
  · next o _ =>
    obtain ⟨_, _, h, _⟩ := s.hostReadReg_frame (hostReg o)
    rw [h]

theorem State.whenStopped_seq {s t : State} (h : t.seq = s.seq) : (s.whenStopped t).seq = s.seq := by
  unfold State.whenStopped
  split
  · rfl
  · exact h

/-- Only a write of CTRL can change STATE (R324, R330). -/
theorem State.hostWriteReg_seq (s : State) (data : Word) {r : HostReg} (h : r ≠ .ctrl) :
    (s.hostWriteReg data r).seq = s.seq := by
  cases r with
  | ctrl => exact absurd rfl h
  | pc => exact State.whenStopped_seq rfl
  | cm k => exact State.whenStopped_seq rfl
  | tb k => exact State.whenStopped_seq rfl
  | _ => rfl

/-- The ways from STATE in `s` to STATE in `t`: R38's own, and the power-on turn. -/
inductive SeqChange (s t : State) : Prop
  | kept (ht : t.seq = s.seq)
  | halted (hm : s.sequencerMoves) (hp : s.pc.toNat < Config.cmSize) (hd : decode (s.cmWord s.pc.toNat) = some .halt)
      (ht : t.seq = .halted)
  | faulted (hm : s.sequencerMoves) (ht : t.seq = .faulted) (hc : t.cause ≠ .none)
  | softReset {addr : Nat} {data : Word} {rest : List Turn} {o : Nat} (hturns : s.turns = .hostWrite addr data :: rest)
      (ho : hostOffset addr = some o) (hreg : hostReg o = .ctrl) (hsrst : data.getLsbD 1 = true) (ht : t.seq = .idle)
  | started {addr : Nat} {data : Word} {rest : List Turn} {o : Nat} (hturns : s.turns = .hostWrite addr data :: rest)
      (ho : hostOffset addr = some o) (hreg : hostReg o = .ctrl) (hstart : data.getLsbD 0 = true)
      (hsrst : data.getLsbD 1 = false) (ht : t.seq = .running)
  | poweredOn (hturn : s.turns.head? = some .powerOn) (ht : t.seq = .idle)

/-- The sequencer's turn changes STATE by HALT or a fault (R292, R300). -/
theorem SeqChange.of_sequencerTurn {s t : State} (hm : s.sequencerMoves) (h : sequencerTurn s.afterTurn = .next t) :
    SeqChange s t := by
  rcases sequencerTurn_cases s.afterTurn with
    ⟨_, he⟩ | ⟨_, _, he⟩ | ⟨_, _, _, he⟩ | ⟨i, _, hp, hd, he⟩ <;> rw [he] at h
  case inl => cases h; exact .kept rfl
  case inr.inl => cases h; exact .faulted hm rfl (by simp)
  case inr.inr.inl => cases h; exact .faulted hm rfl (by simp)
  case inr.inr.inr =>
    have hdid := exec_did i s.afterTurn
    rw [h] at hdid
    cases hdid with
    | faulted c hc => exact .faulted hm rfl hc
    | halted hi => exact .halted hm hp (hi ▸ hd) rfl
    | completed t' _ w => exact .kept w.seq

/-- A host write changes STATE by SRST or, without it, by START of CTRL (R323, R324). -/
theorem SeqChange.of_hostWrite {s : State} {addr : Nat} {data : Word} {rest : List Turn}
    (hturns : s.turns = .hostWrite addr data :: rest) : SeqChange s (s.afterTurn.hostWrite addr data) := by
  unfold State.hostWrite
  split
  · exact .kept rfl
  · next o ho =>
    by_cases hreg : hostReg o = .ctrl
    · rw [hreg, State.hostWriteReg, State.writeCtrl]
      split
      · next h1 => exact .softReset hturns ho hreg h1 (State.softReset_seq _)
      · next h1 =>
        split
        · next h0 => exact .started hturns ho hreg h0 (by simpa using h1) (State.start_seq _)
        · exact .kept rfl
    · exact .kept (State.hostWriteReg_seq s.afterTurn data hreg)

/-- How a step can change STATE: the one inversion lemma of `step` on STATE (R38). -/
theorem seqChange_of_step {s t : State} (h : step s = .next t) : SeqChange s t := by
  rcases sequencerMoves_or s with hm | ⟨turn, rest, hturns, hne⟩
  · exact .of_sequencerTurn hm (step_of_sequencerMoves hm ▸ h)
  · rw [step_of_turn hturns] at h
    cases turn with
    | sequencer => exact absurd rfl hne
    | hostRead addr => cases h; exact .kept (State.hostRead_seq s.afterTurn addr)
    | hostWrite addr data => cases h; exact .of_hostWrite hturns
    | powerOn => cases h; exact .poweredOn (by rw [hturns]; rfl) rfl

end Sys2Proof.Machine
end

section
/-! PROOF. STATE changes only as R38 lists. -/

namespace Sys2Proof.Machine

/-- Settles O8: each part reads the cases of `seqChange_of_step`. -/
theorem stateChangesOnlyAsListed : Obligations.StateChangesOnlyAsListed := by
  unfold Obligations.StateChangesOnlyAsListed
  refine ⟨⟨rfl, rfl, rfl, rfl⟩, fun s hm hs => ?_, fun s t hpow h hs ht => ?_, fun s t h hs ht => ?_⟩
  · rw [step_of_sequencerMoves hm, sequencerTurn_of_stopped (by exact hs)]
  · cases seqChange_of_step h with
    | kept hk => exact absurd (hk.trans hs) ht
    | halted hm hp hd hh => exact .inl ⟨hm, hp, hd, hh⟩
    | faulted hm hf hc => exact .inr (.inl ⟨hm, hf, hc⟩)
    | softReset hturns ho hreg hsrst hi => exact .inr (.inr ⟨_, _, _, _, hturns, ho, hreg, hsrst, hi⟩)
    | started _ _ _ _ _ hr => exact absurd hr ht
    | poweredOn hp _ => exact absurd hp hpow
  · cases seqChange_of_step h with
    | started hturns ho hreg hstart hsrst _ => exact ⟨_, _, _, _, hturns, ho, hreg, hstart, hsrst⟩
    | kept hk => exact absurd (hk.symm.trans ht) hs
    | halted _ _ _ hx | faulted _ hx _ | softReset _ _ _ _ hx | poweredOn _ hx => rw [hx] at ht; cases ht

end Sys2Proof.Machine
end

section
/-! SUPPORT. Which results of the operand functions are trimmed (R33), and what a command that completes leaves: one rule per
shared operation. -/

namespace Sys2Proof.Machine

theorem norm_trimmed {x : Nat} {r : VReg} (h : norm x = some r) : r.trimmed := by
  obtain ⟨_, ht, _, _⟩ := norm_eq_some h
  exact ht

theorem VReg.shiftDown_trimmed (r : VReg) (n : Nat) : (r.shiftDown n).trimmed := by
  obtain ⟨_, ht, _⟩ := r.shiftDown_spec n
  exact ht

/-- The length of a byte as an operand is its trimmed length (R201). -/
theorem byteLen_eq_tlen {y : Nat} (h : y < 256) : byteLen y = tlen y := by
  have hle := tlen_le_iff y 1
  have hzero := tlen_eq_zero_iff y
  unfold byteLen
  split <;> omega

/-- The sum of trimmed operands is trimmed (R200, R201): without a carry it needs the longer length, with one a byte more. -/
theorem VReg.plus_trimmed {r t : VReg} {n y : Nat} (hr : r.trimmed) (hn : n = tlen y) (h : r.plus n y = some t) :
    t.trimmed := by
  subst hn
  rw [VReg.trimmed_iff] at hr ⊢
  obtain ⟨hval, hlen, _⟩ := VReg.plus_eq_some (lt_pow_tlen y) h
  have hfits := tlen_le_iff (r.val + y) (max r.len (tlen y))
  rw [hval, hlen]
  split
  case isTrue hs =>
    have hx : tlen r.val ≤ tlen (r.val + y) := tlen_mono (by omega)
    have hy : tlen y ≤ tlen (r.val + y) := tlen_mono (by omega)
    have := hfits.mpr hs
    omega
  case isFalse hs =>
    have := (tlen_le_iff _ _).mpr (sum_lt_pow_succ r.val_lt (lt_pow_tlen y))
    have := mt hfits.mp hs
    omega

/-- Zero bytes below keep a register of a nonzero length trimmed: the top byte is the same. -/
theorem VReg.trimmed_replicate_append {r : VReg} (hr : r.trimmed) (h0 : r.len ≠ 0) (n : Nat) :
    (VReg.mk (List.replicate n 0#8 ++ r.bytes)).trimmed := by
  have htop : r.byte (r.len - 1) ≠ 0 := hr.resolve_left h0
  have hlen : (VReg.mk (List.replicate n 0#8 ++ r.bytes)).len - 1 = n + (r.len - 1) := by
    simp only [VReg.len, List.length_append, List.length_replicate] at *
    omega
  right
  rw [hlen]
  simpa [VReg.byte, List.getElem?_append_right] using htop

/-- A trimmed register shifted up is trimmed (R203, R205). -/
theorem VReg.shiftUp_trimmed {r t : VReg} {n : Nat} (hr : r.trimmed) (h : r.shiftUp n = some t) : t.trimmed := by
  unfold VReg.shiftUp at h
  split at h
  · cases h; exact hr
  · next hne =>
    split at h
    · cases h
    · cases h
      refine VReg.trimmed_replicate_append hr (fun h0 => hne (.inl ?_)) n
      exact (tlen_eq_zero_iff _).mp ((VReg.trimmed_iff r).mp hr ▸ h0)

/-- Zero bytes alone are not trimmed (R33, R141). -/
theorem VReg.not_trimmed_replicate_zero {n : Nat} (h : 0 < n) : ¬ (VReg.mk (List.replicate n 0#8)).trimmed := by
  rw [VReg.trimmed_iff, VReg.val, valOf_replicate_zero, tlen_zero, VReg.len, List.length_replicate]
  omega

/-- Where the outcome is a command that completed, the sequencer still RUNNING, the next state meets `q`. -/
def OnCompletion (q : State → Prop) (k : Result) : Prop := ∀ t, k = .next t → t.seq = .running → q t

section
variable {q : State → Prop} {s : State}

theorem OnCompletion.raised (c : Cause) : OnCompletion q (raise c s) := by
  intro t h hr
  cases h
  cases hr

theorem OnCompletion.complete (h : q s.advance) : OnCompletion q (complete s) := by
  intro t ht _
  cases ht
  exact h

theorem OnCompletion.unlessAlias {p : Prop} [Decidable p] {k : Result} (h : ¬ p → OnCompletion q k) :
    OnCompletion q (unlessAlias p s k) := by
  unfold Machine.unlessAlias
  split
  · exact .raised _
  · next hp => exact h hp

theorem OnCompletion.inBuffer {x y : Nat} {k : Result} (h : OnCompletion q k) : OnCompletion q (inBuffer x y s k) := by
  unfold Machine.inBuffer
  split
  · exact .raised _
  · exact h

theorem OnCompletion.unlessZero {d : Nat} {k : Result} (h : OnCompletion q k) : OnCompletion q (unlessZero d s k) := by
  unfold Machine.unlessZero
  split
  · exact .raised _
  · exact h

theorem OnCompletion.writeV {a : VIdx} {r : Option VReg} (h : ∀ x, r = some x → q (s.setV a x).advance) :
    OnCompletion q (writeV a r s) := by
  cases r with
  | none => exact .raised _
  | some x => exact .complete (h x rfl)

theorem OnCompletion.subtract {a : VIdx} {x y : Nat} (h : ∀ r, norm (x - y) = some r → q (s.setV a r).advance) :
    OnCompletion q (subtract a x y s) := by
  unfold Machine.subtract
  split
  · exact .raised _
  · exact .writeV h

theorem OnCompletion.writeTwo {a b : VIdx} {r u : Option VReg}
    (h : ∀ x y, r = some x → u = some y → q ((s.setV a x).setV b y).advance) : OnCompletion q (writeTwo a b r u s) := by
  cases r with
  | none => exact .raised _
  | some x =>
    cases u with
    | none => exact .raised _
    | some y => exact .complete (h x y rfl rfl)

theorem OnCompletion.loadText {t : List Byte} {a : VIdx} {b : SIdx} (hinvalid : q (s.setS b 0x0000).advance)
    (hvalid : q ((s.setV a (parsed t).trim).setS b 0x0001).advance) : OnCompletion q (loadText t a b s) := by
  unfold Machine.loadText
  split
  · exact .complete hinvalid
  · split
    · exact .raised _
    · exact .complete hvalid

end

end Sys2Proof.Machine
end

section
/-! PROOF. Which commands write trimmed registers (R33). -/

namespace Sys2Proof.Machine

/-- Every value register the command writes is trimmed in `t`. -/
def WritesTrimmed (i : Instr) (t : State) : Prop := ∀ r ∈ i.vWrites, (t.getV r).trimmed

theorem writesTrimmed_setV {i : Instr} {a : VIdx} {x : VReg} (s : State) (hi : i.vWrites = [a]) (hx : x.trimmed) :
    WritesTrimmed i (s.setV a x).advance := by
  intro r hr
  rw [hi, List.mem_singleton] at hr
  rw [hr, State.getV_advance, State.getV_setV_self]
  exact hx

theorem writesTrimmed_setV_setV {i : Instr} {a b : VIdx} {x y : VReg} (s : State) (hi : i.vWrites = [a, b])
    (hx : x.trimmed) (hy : y.trimmed) : WritesTrimmed i ((s.setV a x).setV b y).advance := by
  intro r hr
  rw [hi, List.mem_pair] at hr
  rw [State.getV_advance, State.getV_setV]
  split
  · exact hy
  · next hne => rw [hr.resolve_right hne, State.getV_setV_self]; exact hx

/-- The commands of R33 whose result is always trimmed; LOAD where it reports success. -/
theorem exec_writesTrimmed {i : Instr} (s : State)
    (hi : (∃ a, i = .trim a) ∨ (∃ a c, i = .sub a c) ∨ (∃ a, i = .dec a) ∨ (∃ a c, i = .mul a c) ∨
      (∃ a b c d, i = .div a b c d) ∨ (∃ b c d, i = .mod b c d) ∨ (∃ a c, i = .sqrt a c) ∨ (∃ a b, i = .bshd a b) ∨
      (∃ a y, i = .mbshd a y)) : OnCompletion (WritesTrimmed i) (exec i s) := by
  rcases hi with ⟨a, rfl⟩ | ⟨a, c, rfl⟩ | ⟨a, rfl⟩ | ⟨a, c, rfl⟩ | ⟨a, b, c, d, rfl⟩ | ⟨b, c, d, rfl⟩ | ⟨a, c, rfl⟩ |
    ⟨a, b, rfl⟩ | ⟨a, y, rfl⟩
  · exact .complete (writesTrimmed_setV s rfl (VReg.trimmed_trim _))
  · exact .unlessAlias fun _ => .subtract fun _ h => writesTrimmed_setV s rfl (norm_trimmed h)
  · exact .subtract fun _ h => writesTrimmed_setV s rfl (norm_trimmed h)
  · exact .unlessAlias fun _ => .writeV fun _ h => writesTrimmed_setV s rfl (norm_trimmed h)
  · exact .unlessAlias fun _ => .unlessZero (.writeTwo fun _ _ hq hr =>
      writesTrimmed_setV_setV s rfl (norm_trimmed hq) (norm_trimmed hr))
  · exact .unlessAlias fun _ => .unlessZero (.writeV fun _ h => writesTrimmed_setV s rfl (norm_trimmed h))
  · exact .unlessAlias fun _ => .writeV fun _ h => writesTrimmed_setV s rfl (norm_trimmed h)
  · exact .complete (writesTrimmed_setV s rfl (VReg.shiftDown_trimmed _ _))
  · exact .complete (writesTrimmed_setV s rfl (VReg.shiftDown_trimmed _ _))

/-- A LOAD that reports 1 has written a trimmed register (R33, R168). -/
theorem execLoad_writesTrimmed (a : VIdx) (b : SIdx) (x y : Nat) (s : State) :
    OnCompletion (fun t => t.getS b = 1 → WritesTrimmed (.load a b x y) t) (exec (.load a b x y) s) := by
  refine .inBuffer (.loadText (fun h => ?_) fun _ => ?_)
  · simp at h
  · exact writesTrimmed_setV s rfl (VReg.trimmed_trim _)

/-- The commands of R33 whose result is trimmed when the registers they read are. -/
theorem exec_writesTrimmed_of_reads {i : Instr} {s : State} (hw : i.wellFormed = true)
    (hi : (∃ a c, i = .add a c) ∨ (∃ a y, i = .addb a y) ∨ (∃ a, i = .inc a) ∨ (∃ a, i = .bshi a) ∨
      (∃ a y, i = .mbshi a y) ∨ (∃ a c, i = .clone a c)) (hs : ∀ r ∈ i.vReads, (s.getV r).trimmed) :
    OnCompletion (WritesTrimmed i) (exec i s) := by
  rcases hi with ⟨a, c, rfl⟩ | ⟨a, y, rfl⟩ | ⟨a, rfl⟩ | ⟨a, rfl⟩ | ⟨a, y, rfl⟩ | ⟨a, c, rfl⟩
  · have hc := (VReg.trimmed_iff _).mp (hs c (.tail _ (.head _)))
    exact .unlessAlias fun _ => .writeV fun _ h => writesTrimmed_setV s rfl (VReg.plus_trimmed (hs a (.head _)) hc h)
  · have hy := byteLen_eq_tlen (y := y) (by simpa [Instr.wellFormed, fitsByte] using hw)
    exact .writeV fun _ h => writesTrimmed_setV s rfl (VReg.plus_trimmed (hs a (.head _)) hy h)
  · have h1 := byteLen_eq_tlen (y := 1) (by decide)
    exact .writeV fun _ h => writesTrimmed_setV s rfl (VReg.plus_trimmed (hs a (.head _)) h1 h)
  · exact .writeV fun _ h => writesTrimmed_setV s rfl (VReg.shiftUp_trimmed (hs a (.head _)) h)
  · exact .writeV fun _ h => writesTrimmed_setV s rfl (VReg.shiftUp_trimmed (hs a (.head _)) h)
  · exact .unlessAlias fun _ => .complete (writesTrimmed_setV s rfl (hs c (.head _)))

/-- INIT of a length above zero leaves an untrimmed register (R33, R141). -/
theorem execInit_not_trimmed (s : State) (a : VIdx) {n : Nat} (h0 : 0 < n) (hn : n ≤ Config.cap) :
    ∃ t, exec (.init a n) s = .next t ∧ ¬ (t.getV a).trimmed := by
  refine ⟨(s.setV a ⟨List.replicate n 0#8⟩).advance, ?_, ?_⟩
  · show execInit a n s = _
    rw [execInit, if_neg (by omega), writeV_some]
  · rw [State.getV_advance, State.getV_setV_self]
    exact VReg.not_trimmed_replicate_zero h0

theorem allTrimmed_reset : State.reset.allTrimmed := by
  show ∀ i, (State.reset.getV i).trimmed
  decide

theorem allTrimmed_setV {s : State} (hs : s.allTrimmed) (a : VIdx) {x : VReg} (hx : x.trimmed) :
    (s.setV a x).allTrimmed := by
  intro r
  rw [State.getV_setV]
  split
  · exact hx
  · exact hs r

/-- GROW of an empty register: one zero byte (R142). -/
theorem exec_grow_reset : exec (.grow 0) State.reset = .next (State.reset.setV 0 ⟨[0]⟩).advance := rfl

/-- SETB of the only byte to zero (R144). -/
theorem exec_setb_reset :
    exec (.setb 0 0 0) (State.reset.setV 0 ⟨[1]⟩) = .next ((State.reset.setV 0 ⟨[1]⟩).setV 0 ⟨[0]⟩).advance := rfl

/-- Settles O17: the two groups of commands by the rules of the operations they are built from; GROW and SETB by a concrete
state each. -/
theorem trimmedResults : Obligations.TrimmedResults := by
  unfold Obligations.TrimmedResults
  refine ⟨fun i s t _ h hr hi => ?_, fun i s t _ hw h hr hi hs => ?_, fun s a n => execInit_not_trimmed s a,
    ⟨_, _, 0, allTrimmed_reset, exec_grow_reset, ?_⟩,
    ⟨_, _, 0, 0, 0, allTrimmed_setV allTrimmed_reset 0 (.inr (by decide)), exec_setb_reset, ?_⟩⟩
  · rcases hi with hi | ⟨a, b, x, y, rfl, hb⟩ | hi
    · exact exec_writesTrimmed s (.inl hi) t h hr
    · exact execLoad_writesTrimmed a b x y s t h hr hb
    · exact exec_writesTrimmed s (.inr hi) t h hr
  · exact exec_writesTrimmed_of_reads hw hi hs t h hr
  · decide
  · decide

end Sys2Proof.Machine
end

section
/-! PROOF. A word decodes to the command of the one row it matches, or to nothing (R110), and the worked encodings (R115). -/

namespace Sys2Proof

theorem Row.selects_iff {r : Row} {w : Word} : r.selects w = true ↔ w &&& r.mask = r.pattern := beq_iff_eq

/-- The opcode names the row (R110). -/
theorem row_eq_of_opcodeOf_eq {r t : Row} (hr : r ∈ opcodeTable) (ht : t ∈ opcodeTable)
    (h : opcodeOf r.pattern = opcodeOf t.pattern) : r = t :=
  have hnodup : (opcodeTable.map fun r => opcodeOf r.pattern).Nodup := List.pairwise_map.mpr opcodes_differ
  List.inj_on_of_nodup_map hnodup hr ht h

/-- No two rows select one word: both would have the word's opcode (R110). -/
theorem row_eq_of_selects {r t : Row} (hr : r ∈ opcodeTable) (ht : t ∈ opcodeTable) {w : Word}
    (hrw : r.selects w = true) (htw : t.selects w = true) : r = t :=
  row_eq_of_opcodeOf_eq hr ht ((opcodeOf_of_selects hr hrw).symm.trans (opcodeOf_of_selects ht htw))

/-- A word is illegal just when no row selects it (R108, R109). -/
theorem decode_eq_none_iff {w : Word} : decode w = none ↔ ∀ r ∈ opcodeTable, ¬ r.selects w = true := by
  rw [decode, Option.map_eq_none_iff, List.find?_eq_none]

namespace Machine

/-- Settles O3: the matching row by its opcode, the illegal word by the decoder's search. -/
theorem decodeIsTheUniqueMatchingRow : Obligations.DecodeIsTheUniqueMatchingRow := by
  unfold Obligations.DecodeIsTheUniqueMatchingRow
  simp only [← Row.selects_iff, ne_eq]
  intro w
  refine ⟨fun r hr hrw => ⟨decode_of_selects hr hrw, fun t ht htw => ?_⟩, decode_eq_none_iff.mpr⟩
  exact row_eq_of_selects ht hr htw hrw

/-- Settles O4: the decoder run on each of the five words. -/
theorem workedEncodingsDecode : Obligations.WorkedEncodingsDecode := by
  unfold Obligations.WorkedEncodingsDecode
  exact ⟨by decide, by decide, by decide, by decide, by decide⟩

end Machine
end Sys2Proof
end

section
/-! SUPPORT. The bytes of the registers the storage commands write (R141, R142, R144), and what each of those commands answers:
one equation per case (R140 to R146). -/

namespace Sys2Proof.Machine

@[simp] theorem VReg.byte_replicate_zero (n k : Nat) : (VReg.mk (List.replicate n 0#8)).byte k = 0 := by
  rw [VReg.byte, List.getD_eq_getElem?_getD, List.getElem?_replicate]
  split <;> rfl

/-- A zero byte on top leaves every byte as it was: above the length it read zero already (R32, R142). -/
@[simp] theorem VReg.byte_append_zero (r : VReg) (k : Nat) : (VReg.mk (r.bytes ++ [0#8])).byte k = r.byte k := by
  rcases Nat.lt_or_ge k r.len with hk | hk
  · exact List.getD_append _ _ _ _ hk
  · rw [r.byte_of_len_le hk, VReg.byte, List.getD_append_right _ _ _ _ hk]
    cases k - r.bytes.length <;> rfl

theorem VReg.byte_set_self (r : VReg) {k : Nat} (h : k < r.len) (x : Byte) : (VReg.mk (r.bytes.set k x)).byte k = x := by
  rw [VReg.byte, List.getD_eq_getElem?_getD, List.getElem?_set_self h, Option.getD_some]

theorem VReg.byte_set_ne (r : VReg) {j k : Nat} (h : j ≠ k) (x : Byte) :
    (VReg.mk (r.bytes.set k x)).byte j = r.byte j := by
  rw [VReg.byte, List.getD_eq_getElem?_getD, List.getElem?_set_ne h.symm, ← List.getD_eq_getElem?_getD, VReg.byte]

theorem exec_init_of_le {n : Nat} (h : n ≤ Config.cap) (a : VIdx) (s : State) :
    exec (.init a n) s = .next (s.setV a ⟨List.replicate n 0#8⟩).advance := by
  show execInit a n s = _
  rw [execInit, if_neg (by omega), writeV_some]

theorem exec_init_of_lt {n : Nat} (h : Config.cap < n) (a : VIdx) (s : State) :
    exec (.init a n) s = .next (s.enterFault .capacityExceeded) := by
  show execInit a n s = _
  rw [execInit, if_pos h, writeV_none]

theorem exec_grow_of_le {a : VIdx} {s : State} (h : (s.getV a).len + 1 ≤ Config.cap) :
    exec (.grow a) s = .next (s.setV a ⟨(s.getV a).bytes ++ [0#8]⟩).advance := by
  show execGrow a s = _
  rw [execGrow, if_neg (by omega), writeV_some]

theorem exec_grow_of_lt {a : VIdx} {s : State} (h : Config.cap < (s.getV a).len + 1) :
    exec (.grow a) s = .next (s.enterFault .capacityExceeded) := by
  show execGrow a s = _
  rw [execGrow, if_pos h, writeV_none]

theorem exec_trim (a : VIdx) (s : State) : exec (.trim a) s = .next (s.setV a (s.getV a).trim).advance := rfl

theorem exec_trim_of_trimmed {a : VIdx} {s : State} (h : (s.getV a).trimmed) : exec (.trim a) s = .next s.advance := by
  rw [exec_trim, VReg.trim_of_trimmed h, State.setV_getV]

theorem exec_setb_of_inRange {a : VIdx} {k y : Nat} {s : State} (h : y < (s.getV a).len ∧ k ≤ 255) :
    exec (.setb a k y) s = .next (s.setV a ⟨(s.getV a).bytes.set y (BitVec.ofNat 8 k)⟩).advance := by
  show execSetb a k y s = _
  rw [execSetb, if_pos h, complete_eq]

theorem exec_setb_of_not_inRange {a : VIdx} {k y : Nat} {s : State} (h : ¬ (y < (s.getV a).len ∧ k ≤ 255)) :
    exec (.setb a k y) s = .next s.advance := by
  show execSetb a k y s = _
  rw [execSetb, if_neg h, complete_eq]

theorem exec_getb (a : VIdx) (b : SIdx) (y : Nat) (s : State) :
    exec (.getb a b y) s = .next (s.setS b (((s.getV a).byte y).setWidth 16)).advance := rfl

theorem exec_getb_of_len_le {a : VIdx} {y : Nat} {s : State} (h : (s.getV a).len ≤ y) (b : SIdx) :
    exec (.getb a b y) s = .next (s.setS b 0).advance := by
  rw [exec_getb, VReg.byte_of_len_le _ h]
  rfl

theorem exec_numb (a : VIdx) (b : SIdx) (s : State) :
    exec (.numb a b) s = .next (s.setS b ((s.getV a).lenField.setWidth 16)).advance := rfl

theorem exec_bufsz (a : VIdx) (b : SIdx) (s : State) :
    exec (.bufsz a b) s = .next (s.setS b (BitVec.ofNat 16 (5 + 2 * (s.getV a).len))).advance := rfl

/-- NUMB reports the length of every register within CAP (R31, R146). -/
theorem VReg.toNat_lenField_setWidth {r : VReg} (h : r.len ≤ Config.cap) : (r.lenField.setWidth 16).toNat = r.len := by
  rw [BitVec.toNat_setWidth_of_le (by decide), VReg.toNat_lenField h]

end Sys2Proof.Machine
end

section
/-! PROOF. The storage commands INIT, GROW, TRIM and SETB, and the accessors GETB, NUMB and BUFSZ (R141 to R146, R169). -/

namespace Sys2Proof.Machine

/-- Settles O25: the register of n zero bytes, on either side of CAP. -/
theorem initMakesZeroBytes : Obligations.InitMakesZeroBytes := by
  unfold Obligations.InitMakesZeroBytes
  intro a n s
  exact ⟨fun h => ⟨_, exec_init_of_le h a s, List.length_replicate, VReg.byte_replicate_zero n⟩,
    fun h => exec_init_of_lt h a s⟩

/-- Settles O26: the zero byte on top, on either side of CAP. -/
theorem growAddsAZeroByte : Obligations.GrowAddsAZeroByte := by
  unfold Obligations.GrowAddsAZeroByte
  intro a s
  exact ⟨fun h => ⟨_, exec_grow_of_le h, List.length_append, VReg.byte_append_zero _⟩, exec_grow_of_lt⟩

/-- Settles O27: what Trim answers, and that it is the identity on a trimmed register. -/
theorem trimKeepsTheValue : Obligations.TrimKeepsTheValue := by
  unfold Obligations.TrimKeepsTheValue
  intro a s
  exact ⟨⟨_, exec_trim a s, VReg.val_trim _, VReg.trimmed_trim _⟩, exec_trim_of_trimmed⟩

/-- Settles O28: the byte written, with the value within a byte, and the command ignored out of range. -/
theorem setbWritesOneByteOrIgnores : Obligations.SetbWritesOneByteOrIgnores := by
  unfold Obligations.SetbWritesOneByteOrIgnores
  intro a k y s
  refine ⟨fun h => ⟨_, exec_setb_of_inRange h, List.length_set, ?_, fun j hj => VReg.byte_set_ne _ hj _⟩,
    exec_setb_of_not_inRange⟩
  obtain ⟨hy, hk⟩ := h
  rw [VReg.byte_set_self _ hy, BitVec.toNat_ofNat, Nat.mod_eq_of_lt (Nat.lt_succ_of_le hk)]

/-- Settles O29: each accessor's equation; the length field within CAP for NUMB. -/
theorem accessorsWriteTheScalar : Obligations.AccessorsWriteTheScalar := by
  unfold Obligations.AccessorsWriteTheScalar
  intro a b y s
  exact ⟨fun _ => exec_getb a b y s, fun h => exec_getb_of_len_le h b,
    ⟨_, exec_numb a b s, rfl, VReg.toNat_lenField_setWidth⟩, exec_bufsz a b s⟩

end Sys2Proof.Machine
end

section
/-! SUPPORT. The characters of the text formats, one by one: which characters are digits and what they stand for (R12), the digit
pairs of a byte list and the bytes of a pair list by index, the grammar LOAD accepts by index (R160 to R162), and the decimal text
(R165). -/

namespace Sys2Proof.Machine

theorem isHexU_iff (c : Byte) :
    isHexU c = true ↔ (0x30 ≤ c.toNat ∧ c.toNat ≤ 0x39) ∨ (0x41 ≤ c.toNat ∧ c.toNat ≤ 0x46) := by
  simp only [isHexU, Bool.or_eq_true, Bool.and_eq_true, decide_eq_true_eq]

/-- A digit of HEXU stands for a number below 16 (R12). -/
theorem hexval_lt {c : Byte} (h : isHexU c = true) : hexval c < 16 := by
  rw [isHexU_iff] at h
  unfold hexval
  split <;> omega

/-- The digits of pair `k` are those of byte `k`, the high digit first (R160). -/
theorem getD_hexPairs {bs : List Byte} {k : Nat} (h : k < bs.length) :
    (hexPairs bs).getD (2 * k) 0 = hexDigit ((bs.getD k 0).toNat / 16) ∧
    (hexPairs bs).getD (2 * k + 1) 0 = hexDigit ((bs.getD k 0).toNat % 16) := by
  induction bs generalizing k with
  | nil => exact absurd h (Nat.not_lt_zero k)
  | cons b bs ih =>
    rw [hexPairs_cons]
    cases k with
    | zero => exact ⟨rfl, rfl⟩
    | succ k => exact ih (Nat.lt_of_succ_lt_succ h)

/-- Byte `k` of a pair list is what its two digits stand for, kept within a byte (R168). -/
theorem getD_pairBytes {t : List Byte} {k : Nat} (h : 2 * k + 1 < t.length) :
    (pairBytes t).getD k 0 = BitVec.ofNat 8 (16 * hexval (t.getD (2 * k) 0) + hexval (t.getD (2 * k + 1) 0)) := by
  induction t using pairBytes.induct generalizing k with
  | case1 c d rest ih =>
    cases k with
    | zero => rfl
    | succ k =>
      simp only [List.length_cons] at h
      exact ih (by omega)
  | case2 t hshort =>
    match t with
    | [] | [_] => simp at h
    | c :: d :: rest => exact absurd rfl (hshort c d rest)

/-- A test on every character is the test at every index. -/
theorem all_iff_getD (p : Byte → Bool) (t : List Byte) :
    t.all p = true ↔ ∀ k, k < t.length → p (t.getD k 0) = true := by
  rw [List.all_eq_true, List.forall_mem_iff_forall_getElem]
  exact forall₂_congr fun k hk => by rw [List.getD_eq_getElem t 0 hk]

theorem getD_drop (t : List Byte) (n k : Nat) : (t.drop n).getD k 0 = t.getD (n + k) 0 := by
  rw [List.getD_eq_getElem?_getD, List.getElem?_drop, List.getD_eq_getElem?_getD]

theorem getD_take {n k : Nat} (h : k < n) (t : List Byte) : (t.take n).getD k 0 = t.getD k 0 := by
  rw [List.getD_eq_getElem?_getD, List.getElem?_take_of_lt h, List.getD_eq_getElem?_getD]

theorem all_take_iff_getD (p : Byte → Bool) {t : List Byte} {n : Nat} (h : n ≤ t.length) :
    (t.take n).all p = true ↔ ∀ k, k < n → p (t.getD k 0) = true := by
  rw [all_iff_getD, List.length_take, Nat.min_eq_left h]
  exact forall₂_congr fun k hk => by rw [getD_take hk]

theorem all_drop_iff_getD (p : Byte → Bool) (t : List Byte) (n : Nat) :
    (t.drop n).all p = true ↔ ∀ k, n ≤ k → k < t.length → p (t.getD k 0) = true := by
  simp only [all_iff_getD, List.length_drop, getD_drop]
  constructor
  · intro h k hn hk
    have := h (k - n) (by omega)
    rwa [Nat.add_sub_cancel' hn] at this
  · intro h k hk
    exact h (n + k) (by omega) (by omega)

/-- The grammar of R162, character by character. -/
theorem valid_iff (t : List Byte) :
    valid t = true ↔ 5 ≤ t.length ∧ (∀ k, k < 4 → isHexU (t.getD k 0) = true) ∧ t.getD 4 0 = underscore ∧
      t.length = 5 + 2 * cnt t ∧ (∀ k, 5 ≤ k → k < t.length → isHexU (t.getD k 0) = true) := by
  simp only [valid, Bool.and_eq_true, decide_eq_true_eq, all_drop_iff_getD, and_assoc]
  exact and_congr_right fun h => and_congr_left fun _ => all_take_iff_getD isHexU (by omega)

/-- Byte `k` a valid text stands for is what its digit pair `k` stands for (R168). -/
theorem byte_parsed {t : List Byte} (h : valid t = true) {k : Nat} (hk : k < cnt t) :
    ((parsed t).byte k).toNat = 16 * hexval (t.getD (5 + 2 * k) 0) + hexval (t.getD (6 + 2 * k) 0) := by
  obtain ⟨_, _, _, hlen, hdigits⟩ := (valid_iff t).mp h
  have hhigh := hexval_lt (hdigits (5 + 2 * k) (by omega) (by omega))
  have hlow := hexval_lt (hdigits (6 + 2 * k) (by omega) (by omega))
  have hbyte := getD_pairBytes (t := t.drop 5) (k := k) (by rw [List.length_drop]; omega)
  rw [getD_drop, getD_drop, show 5 + (2 * k + 1) = 6 + 2 * k by omega] at hbyte
  calc ((parsed t).byte k).toNat
    _ = (BitVec.ofNat 8 (16 * hexval (t.getD (5 + 2 * k) 0) + hexval (t.getD (6 + 2 * k) 0))).toNat :=
      congrArg BitVec.toNat hbyte
    _ = _ := by rw [BitVec.toNat_ofNat, Nat.mod_eq_of_lt (by omega)]

/-- No decimal text is valid: the character where the separator would be is a digit (R162). -/
theorem valid_dec (x : Nat) : valid (dec x) = false := by
  rw [Bool.eq_false_iff, ne_eq, valid_iff]
  rintro ⟨hlen, _, hsep, _, _⟩
  obtain ⟨_, hdigits, _⟩ := dec_spec x
  have hmem : (dec x).getD 4 0 ∈ dec x := by
    rw [List.getD_eq_getElem _ _ (by omega)]
    exact List.getElem_mem _
  have := hdigits _ hmem
  rw [hsep] at this
  exact absurd this (by decide)

/-- The first digit of a positive number is not 0: with one digit it is the number itself (R165). -/
theorem dec_headD_ne_zero {x : Nat} (h : 0 < x) : (dec x).headD 0 ≠ 0x30 := by
  obtain ⟨_, _, hval, hlen | hhead, _⟩ := dec_spec x
  · obtain ⟨c, hc⟩ := List.length_eq_one_iff.mp hlen
    rw [hc] at hval ⊢
    rintro rfl
    exact absurd hval (Nat.ne_of_lt h)
  · exact hhead

/-- A number below 10^n has at most n digits, and at least one (R165). -/
theorem length_dec {x n : Nat} (h : x < 10 ^ n) (hn : 1 ≤ n) : 1 ≤ (dec x).length ∧ (dec x).length ≤ n := by
  obtain ⟨hne, _, _, _, hlen⟩ := dec_spec x
  have hpos := List.length_pos_iff.mpr hne
  refine ⟨hpos, hlen.elim (fun h1 => h1 ▸ hn) fun hpow => ?_⟩
  have := (Nat.pow_lt_pow_iff_right (by decide)).mp (Nat.lt_of_le_of_lt hpow h)
  omega

/-- Every register within CAP holds a number of at most 73 digits (R165). -/
theorem VReg.val_lt_pow_ten {r : VReg} (h : r.len ≤ Config.cap) : r.val < 10 ^ 73 :=
  calc r.val < 256 ^ r.len := r.val_lt
    _ ≤ 256 ^ Config.cap := Nat.pow_le_pow_right (by decide) h
    _ < 10 ^ 73 := by decide

end Sys2Proof.Machine
end

section
/-! SUPPORT. What the text codec commands answer: one equation per case (R163, R166 to R168), and the bytes of TB a stored text
leaves. -/

namespace Sys2Proof.Machine

theorem exec_store (a : VIdx) (b : SIdx) (x y : Nat) (s : State) :
    exec (.store a b x y) s = inBuffer x y s (storeText (canon (s.getV a)) terminator b x y s) := rfl

theorem exec_b10st (a : VIdx) (b : SIdx) (x y : Nat) (s : State) :
    exec (.b10st a b x y) s = inBuffer x y s (storeText (dec (s.getV a).val) terminator b x y s) := rfl

theorem exec_load (a : VIdx) (b : SIdx) (x y : Nat) (s : State) :
    exec (.load a b x y) s = inBuffer x y s (loadText (s.memRead x y) a b s) := rfl

theorem storeText_of_fits {t : List Byte} {y : Nat} (h : t.length + 1 ≤ y) (c : Byte) (b : SIdx) (x : Nat) (s : State) :
    storeText t c b x y s = .next ((s.memWrite x (t ++ [c])).setS b 1).advance := if_neg (by omega)

theorem storeText_of_short {t : List Byte} {y : Nat} (h : y < t.length + 1) (c : Byte) (b : SIdx) (x : Nat) (s : State) :
    storeText t c b x y s = .next (s.setS b 0).advance := if_pos h

theorem loadText_of_invalid {t : List Byte} (h : valid t = false) (a : VIdx) (b : SIdx) (s : State) :
    loadText t a b s = .next (s.setS b 0).advance := if_pos h

theorem loadText_of_long {t : List Byte} (h : valid t = true) (hc : Config.cap < cnt t) (a : VIdx) (b : SIdx) (s : State) :
    loadText t a b s = .next (s.enterFault .capacityExceeded) := by
  rw [loadText, if_neg (by simp [h]), if_pos hc, raise_eq]

theorem loadText_of_valid {t : List Byte} (h : valid t = true) (hc : cnt t ≤ Config.cap) (a : VIdx) (b : SIdx) (s : State) :
    loadText t a b s = .next ((s.setV a (parsed t).trim).setS b 1).advance := by
  rw [loadText, if_neg (by simp [h]), if_neg (by omega), writeS_eq]

/-- Every length within CAP fits the two count bytes (R160). -/
theorem lt_countRange_of_le_cap {n : Nat} (h : n ≤ Config.cap) : n < 65536 := Nat.lt_of_le_of_lt h (by decide)

/-- The region of a stored text reads as the text (R73, R170). -/
theorem State.memRead_memWrite_concat (s : State) (x : Nat) (t : List Byte) (c : Byte) :
    (s.memWrite x (t ++ [c])).memRead x t.length = t := by
  rw [State.memRead_memWrite _ _ _ _ (by simp), List.take_left]

theorem exec_store_of_fits {a : VIdx} {x y : Nat} {s : State} (hxy : x + y ≤ Config.tbSize)
    (h : (canon (s.getV a)).length + 1 ≤ y) (b : SIdx) :
    exec (.store a b x y) s = .next ((s.memWrite x (canon (s.getV a) ++ [terminator])).setS b 1).advance := by
  rw [exec_store, inBuffer_of hxy, storeText_of_fits h]

/-- LOAD of the canonical text of a register within CAP writes that register, trimmed (R168, R170). -/
theorem exec_load_of_canon {x y : Nat} {s : State} {r : VReg} (hxy : x + y ≤ Config.tbSize) (hread : s.memRead x y = canon r)
    (h : r.len ≤ Config.cap) (a : VIdx) (b : SIdx) :
    exec (.load a b x y) s = .next ((s.setV a r.trim).setS b 1).advance := by
  have hcount := lt_countRange_of_le_cap h
  rw [exec_load, inBuffer_of hxy, hread, loadText_of_valid (valid_canon hcount) (by rwa [cnt_canon hcount]), parsed_canon]

/-- TB after a text and the character after it are written at `x`: no other byte changes (R73, R166). -/
theorem State.tbByte_memWrite_concat (s : State) (x : Nat) (t : List Byte) (c : Byte) (j : Nat) :
    (s.memWrite x (t ++ [c])).tbByte j =
      if x ≤ j ∧ j < x + t.length then t.getD (j - x) 0 else if j = x + t.length then c else s.tbByte j := by
  rw [State.tbByte_memWrite, List.length_append, List.length_singleton]
  by_cases htext : x ≤ j ∧ j < x + t.length
  · rw [if_pos (by omega), if_pos htext, List.getD_append _ _ _ _ (by omega)]
    rfl
  · rw [if_neg htext]
    by_cases hend : j = x + t.length
    · rw [if_pos (by omega), if_pos hend, List.getD_append_right _ _ _ _ (by omega), hend, Nat.add_sub_cancel_left,
        Nat.sub_self, List.getD_cons_zero]
    · rw [if_neg (by omega), if_neg hend]

end Sys2Proof.Machine
end

section
/-! PROOF. The text codec: the canonical text, the texts LOAD accepts, the decimal text, and STORE, B10ST and LOAD (R160 to R170). -/

namespace Sys2Proof.Machine

/-- Settles O30: the digits by the sixteen cases, the canonical text by its first five characters and its pairs. -/
theorem canonicalTextForm : Obligations.CanonicalTextForm := by
  unfold Obligations.CanonicalTextForm
  refine ⟨by decide, fun r => ⟨length_canon r, by rw [canon_eq]; rfl, fun k hk => ?_, fun hcap => ?_⟩, by decide⟩
  · rw [canon_eq, Nat.add_comm 5, show 6 + 2 * k = 2 * k + 1 + 5 by omega]
    exact getD_hexPairs hk
  · have hhigh : r.len / 256 = 0 := Nat.div_eq_of_lt (Nat.lt_of_le_of_lt hcap (by decide))
    rw [canon_eq, hhigh]
    exact ⟨rfl, rfl⟩

/-- Settles O31: the grammar by index; a decimal text has a digit where the separator would be. -/
theorem validTextGrammar : Obligations.ValidTextGrammar := by
  unfold Obligations.ValidTextGrammar
  simp only [← isHexU_iff]
  exact ⟨valid_iff, valid_dec⟩

/-- Settles O32: what the digit loop makes, and that 256^CAP is below 10^73. -/
theorem decimalTextReadsAsTheValue : Obligations.DecimalTextReadsAsTheValue := by
  unfold Obligations.DecimalTextReadsAsTheValue
  refine ⟨fun x => ?_, by decide, fun r h => length_dec (VReg.val_lt_pow_ten h) (by decide)⟩
  obtain ⟨hne, hdigits, hval, _⟩ := dec_spec x
  exact ⟨hne, hdigits, hval, dec_headD_ne_zero⟩

/-- Settles O33: the two commands store their text by one operation, whose cases exclude each other. -/
theorem storesWriteTextAndTerminator : Obligations.StoresWriteTextAndTerminator := by
  unfold Obligations.StoresWriteTextAndTerminator
  intro a b x y s i t hi
  have hexec : exec i s = inBuffer x y s (storeText t terminator b x y s) := by
    rcases hi with ⟨rfl, rfl⟩ | ⟨rfl, rfl⟩
    · exact exec_store a b x y s
    · exact exec_b10st a b x y s
  rw [faultsWith, hexec]
  refine ⟨fun hxy hfits => ?_, fun hxy hshort => ?_, fun hxy => inBuffer_of_not hxy s _⟩
  · rw [inBuffer_of hxy, storeText_of_fits hfits]
    exact ⟨_, rfl, s.tbByte_memWrite_concat x t terminator⟩
  · rw [inBuffer_of hxy, storeText_of_short hshort]
    rfl

/-- Settles O34: the pair the text stands for is `parsed`, which LOAD trims. -/
theorem loadParsesCanonicalText : Obligations.LoadParsesCanonicalText := by
  unfold Obligations.LoadParsesCanonicalText
  intro a b x y s t ht
  have hread : s.memRead x y = t := ht.symm
  rw [faultsWith, faultsWith, exec_load, hread]
  refine ⟨fun hxy hv hc => ?_, fun hxy hv hc => ?_, fun hxy hv => ?_, fun hxy => inBuffer_of_not hxy s _⟩
  · rw [inBuffer_of hxy, loadText_of_valid hv hc]
    exact ⟨_, parsed t, rfl, len_parsed hv, fun k => byte_parsed hv, VReg.val_trim _, VReg.trimmed_trim _⟩
  · rw [inBuffer_of hxy, loadText_of_long hv hc]
    rfl
  · rw [inBuffer_of hxy, loadText_of_invalid hv]
    rfl

/-- Settles O35: the region STORE wrote reads as the canonical text, which parses to the register. -/
theorem loadOfStoreIsTheValue : Obligations.LoadOfStoreIsTheValue := by
  unfold Obligations.LoadOfStoreIsTheValue
  intro a a' b b' x y s hs hxy hy
  rw [← show (canon (s.getV a)).length = 5 + 2 * (s.getV a).len from length_canon _]
  have hfits : (canon (s.getV a)).length + 1 ≤ y := by rw [length_canon, bsize]; omega
  have hread : ((s.memWrite x (canon (s.getV a) ++ [terminator])).setS b 1).advance.memRead x (canon (s.getV a)).length =
      canon (s.getV a) := by
    rw [State.memRead_advance, State.memRead_setS, State.memRead_memWrite_concat]
  refine ⟨_, _, exec_store_of_fits hxy hfits b, ?_, rfl, exec_load_of_canon (by omega) hread (hs a) a' b', ?_, ?_, fun h => ?_⟩
  · rw [State.getS_advance, State.getS_setS_self]
  · rw [State.getS_advance, State.getS_setS_self]
  · rw [State.getV_advance, State.getV_setS, State.getV_setV_self]
  · rw [State.getV_advance, State.getV_setS, State.getV_setV_self, VReg.trim_of_trimmed h]

end Sys2Proof.Machine
end

section
/-! SUPPORT. The order `compare` decides (R180): a three-way comparison of ranks, where the rank of a register is one number that
orders first by length and then by value, and determines the register. -/

namespace Sys2Proof.Machine

/-- The result word of CMP for two numbers, with the source's inverted sign (R180). -/
def orderWord (x y : Nat) : Scalar := if x < y then 0x0001 else if y < x then 0xFFFF else 0x0000

theorem orderWord_eq_one_iff (x y : Nat) : orderWord x y = 0x0001 ↔ x < y := by
  unfold orderWord
  split_ifs <;> simp [*]

theorem orderWord_eq_minus_one_iff (x y : Nat) : orderWord x y = 0xFFFF ↔ y < x := by
  unfold orderWord
  split_ifs with hlt <;> simp [*]
  omega

theorem orderWord_eq_zero_iff (x y : Nat) : orderWord x y = 0x0000 ↔ x = y := by
  unfold orderWord
  split_ifs <;> simp <;> omega

/-- The three results are the whole range of CMP (R180). -/
theorem orderWord_cases (x y : Nat) : orderWord x y = 0x0000 ∨ orderWord x y = 0x0001 ∨ orderWord x y = 0xFFFF := by
  rw [orderWord_eq_zero_iff, orderWord_eq_one_iff, orderWord_eq_minus_one_iff]
  omega

/-- The result word depends on the order of the two numbers alone. -/
theorem orderWord_congr {x y x' y' : Nat} (hlt : x < y ↔ x' < y') (hgt : y < x ↔ y' < x') :
    orderWord x y = orderWord x' y' := by
  simp only [orderWord, hlt, hgt]

/-- A higher top digit outweighs all the digits below it. -/
theorem add_mul_lt_add_mul_of_digit_lt {p x d e : Nat} (hx : x < p) (h : d < e) (y : Nat) : x + p * d < y + p * e :=
  calc x + p * d < p * (d + 1) := by rw [Nat.mul_succ]; omega
    _ ≤ p * e := Nat.mul_le_mul_left p h
    _ ≤ y + p * e := Nat.le_add_left _ _

/-- The low k + 1 bytes are byte k on top of the low k bytes (R11). -/
theorem VReg.val_mod_pow_succ (r : VReg) (k : Nat) :
    r.val % 256 ^ (k + 1) = r.val % 256 ^ k + 256 ^ k * (r.byte k).toNat := by
  rw [Nat.mod_pow_succ, VReg.byte_toNat]

/-- The scan from byte k − 1 down compares the numbers the low k bytes hold. -/
theorem compareFrom_eq_orderWord (a b : VReg) (k : Nat) :
    compareFrom a b k = orderWord (a.val % 256 ^ k) (b.val % 256 ^ k) := by
  induction k with
  | zero => simp [compareFrom, orderWord, Nat.mod_one]
  | succ k ih =>
    have hlow : ∀ r : VReg, r.val % 256 ^ k < 256 ^ k := fun r => Nat.mod_lt _ (by simp)
    rw [compareFrom, a.val_mod_pow_succ, b.val_mod_pow_succ]
    by_cases hlt : a.byte k < b.byte k
    · rw [if_pos hlt, eq_comm, orderWord_eq_one_iff]
      exact add_mul_lt_add_mul_of_digit_lt (hlow a) hlt _
    · by_cases hgt : b.byte k < a.byte k
      · rw [if_neg hlt, if_pos hgt, eq_comm, orderWord_eq_minus_one_iff]
        exact add_mul_lt_add_mul_of_digit_lt (hlow b) hgt _
      · have hbyte : a.byte k = b.byte k := BitVec.le_antisymm (BitVec.not_lt.mp hgt) (BitVec.not_lt.mp hlt)
        rw [if_neg hlt, if_neg hgt, ih, hbyte]
        exact orderWord_congr (Nat.add_lt_add_iff_right).symm (Nat.add_lt_add_iff_right).symm

/-- Bytes that agree do not decide: the scan goes on below them (R180). -/
theorem compareFrom_of_agree {a b : VReg} {m n : Nat} (hmn : m ≤ n) (h : ∀ j, m ≤ j → j < n → a.byte j = b.byte j) :
    compareFrom a b n = compareFrom a b m := by
  induction n, hmn using Nat.le_induction with
  | base => rfl
  | succ n hmn ih =>
    have hbyte : a.byte n = b.byte n := h n hmn (Nat.lt_succ_self n)
    rw [compareFrom, hbyte, if_neg (BitVec.lt_irrefl _), if_neg (BitVec.lt_irrefl _)]
    exact ih fun j hm hn => h j hm (Nat.lt_succ_of_lt hn)

theorem compare_of_len_lt {a b : VReg} (h : a.len < b.len) : compare a b = 0x0001 := if_pos h

theorem compare_of_len_gt {a b : VReg} (h : b.len < a.len) : compare a b = 0xFFFF := by
  rw [compare, if_neg (by omega), if_pos h]

theorem compare_of_len_eq {a b : VReg} (h : a.len = b.len) : compare a b = compareFrom a b a.len := by
  rw [compare, if_neg (by omega), if_neg (by omega)]

/-- The highest byte that differs decides at equal lengths (R180). -/
theorem compare_of_first_mismatch {a b : VReg} {k : Nat} (hl : a.len = b.len) (hk : k < a.len)
    (hagree : ∀ j, k < j → j < a.len → a.byte j = b.byte j) :
    (a.byte k < b.byte k → compare a b = 0x0001) ∧ (b.byte k < a.byte k → compare a b = 0xFFFF) := by
  rw [compare_of_len_eq hl, compareFrom_of_agree hk hagree, compareFrom]
  exact ⟨fun h => if_pos h, fun h => by rw [if_neg (BitVec.not_lt.mpr (BitVec.le_of_lt h)), if_pos h]⟩

/-- A register's place in the order of R180: 256^len + val, so that any longer register ranks higher. -/
def VReg.rank (r : VReg) : Nat := 256 ^ r.len + r.val

theorem VReg.rank_lt_of_len_lt {a b : VReg} (h : a.len < b.len) : a.rank < b.rank :=
  calc a.rank < 256 ^ a.len + 256 ^ a.len := Nat.add_lt_add_left a.val_lt _
    _ ≤ 256 ^ (a.len + 1) := by rw [Nat.pow_succ]; omega
    _ ≤ 256 ^ b.len := Nat.pow_le_pow_right (by decide) h
    _ ≤ b.rank := Nat.le_add_right _ _

theorem VReg.rank_lt_iff_of_len_eq {a b : VReg} (h : a.len = b.len) : a.rank < b.rank ↔ a.val < b.val := by
  rw [VReg.rank, VReg.rank, h, Nat.add_lt_add_iff_left]

theorem VReg.rank_inj {a b : VReg} : a.rank = b.rank ↔ a = b := by
  refine ⟨fun h => ?_, congrArg _⟩
  rcases Nat.lt_trichotomy a.len b.len with hl | hl | hl
  · exact absurd h (Nat.ne_of_lt (VReg.rank_lt_of_len_lt hl))
  · refine VReg.ext_val hl ?_
    rw [VReg.rank, VReg.rank, hl] at h
    exact Nat.add_left_cancel h
  · exact absurd h (Nat.ne_of_gt (VReg.rank_lt_of_len_lt hl))

/-- Every comparison, of untrimmed registers too, is the comparison of the ranks (R180, R185). -/
theorem compare_eq_orderWord_rank (a b : VReg) : compare a b = orderWord a.rank b.rank := by
  rcases Nat.lt_trichotomy a.len b.len with hl | hl | hl
  · rw [compare_of_len_lt hl, eq_comm, orderWord_eq_one_iff]
    exact VReg.rank_lt_of_len_lt hl
  · have hb : b.val < 256 ^ a.len := hl ▸ b.val_lt
    rw [compare_of_len_eq hl, compareFrom_eq_orderWord, Nat.mod_eq_of_lt a.val_lt, Nat.mod_eq_of_lt hb]
    exact orderWord_congr (VReg.rank_lt_iff_of_len_eq hl).symm (VReg.rank_lt_iff_of_len_eq hl.symm).symm
  · rw [compare_of_len_gt hl, eq_comm, orderWord_eq_minus_one_iff]
    exact VReg.rank_lt_of_len_lt hl

theorem compare_eq_zero_iff (a b : VReg) : compare a b = 0x0000 ↔ a = b := by
  rw [compare_eq_orderWord_rank, orderWord_eq_zero_iff, VReg.rank_inj]

@[simp] theorem compare_self (a : VReg) : compare a a = 0x0000 := (compare_eq_zero_iff a a).mpr rfl

theorem compare_eq_one_iff_swap (a b : VReg) : compare a b = 0x0001 ↔ compare b a = 0xFFFF := by
  rw [compare_eq_orderWord_rank, compare_eq_orderWord_rank, orderWord_eq_one_iff, orderWord_eq_minus_one_iff]

/-- A trimmed register of smaller value ranks lower: it is not longer (R180). -/
theorem VReg.rank_lt_of_val_lt {a b : VReg} (ha : a.trimmed) (hb : b.trimmed) (h : a.val < b.val) : a.rank < b.rank := by
  have hle : a.len ≤ b.len := by
    rw [(VReg.trimmed_iff a).mp ha, (VReg.trimmed_iff b).mp hb]
    exact tlen_mono (Nat.le_of_lt h)
  rcases Nat.lt_or_eq_of_le hle with hl | hl
  · exact VReg.rank_lt_of_len_lt hl
  · exact (VReg.rank_lt_iff_of_len_eq hl).mpr h

theorem VReg.trimmed_ext {a b : VReg} (ha : a.trimmed) (hb : b.trimmed) (h : a.val = b.val) : a = b := by
  rw [← VReg.trim_of_trimmed ha, ← VReg.trim_of_trimmed hb, VReg.trim, VReg.trim, h]

/-- Among trimmed registers the ranks are ordered as the values. -/
theorem VReg.rank_lt_iff_of_trimmed {a b : VReg} (ha : a.trimmed) (hb : b.trimmed) : a.rank < b.rank ↔ a.val < b.val := by
  refine ⟨fun h => Nat.lt_of_not_le fun hle => ?_, VReg.rank_lt_of_val_lt ha hb⟩
  rcases Nat.lt_or_eq_of_le hle with hv | hv
  · exact Nat.lt_asymm h (VReg.rank_lt_of_val_lt hb ha hv)
  · exact Nat.ne_of_gt h (congrArg VReg.rank (VReg.trimmed_ext hb ha hv))

/-- On trimmed registers the comparison is the numeric one (R180). -/
theorem compare_of_trimmed {a b : VReg} (ha : a.trimmed) (hb : b.trimmed) : compare a b = orderWord a.val b.val := by
  rw [compare_eq_orderWord_rank]
  exact orderWord_congr (VReg.rank_lt_iff_of_trimmed ha hb) (VReg.rank_lt_iff_of_trimmed hb ha)

theorem exec_cmp (a : VIdx) (b : SIdx) (c : VIdx) (s : State) :
    exec (.cmp a b c) s = .next (s.setS b (compare (s.getV a) (s.getV c))).advance := rfl

theorem truth_decide (p : Prop) [Decidable p] : truth (decide p) = if p then 1 else 0 := by
  simp only [truth, decide_eq_true_iff]

theorem exec_lt (a : VIdx) (b : SIdx) (c : VIdx) (s : State) :
    exec (.lt a b c) s = .next (s.setS b (if compare (s.getV a) (s.getV c) = 0x0001 then 1 else 0)).advance := by
  show execLt a b c s = _
  rw [execLt, writeS_eq, truth_decide]

theorem exec_le (a : VIdx) (b : SIdx) (c : VIdx) (s : State) :
    exec (.le a b c) s = .next (s.setS b (if compare (s.getV a) (s.getV c) = 0xFFFF then 0 else 1)).advance := by
  show execLe a b c s = _
  rw [execLe, writeS_eq, truth_decide, ite_not]

theorem exec_eq (a : VIdx) (b : SIdx) (c : VIdx) (s : State) :
    exec (.eq a b c) s = .next (s.setS b (if compare (s.getV a) (s.getV c) = 0x0000 then 1 else 0)).advance := by
  show execEq a b c s = _
  rw [execEq, writeS_eq, truth_decide]

theorem exec_clone_of_ne {a c : VIdx} (h : a ≠ c) (s : State) :
    exec (.clone a c) s = .next (s.setV a (s.getV c)).advance := unlessAlias_of_not h s _

theorem exec_clone_self (a : VIdx) (s : State) : exec (.clone a a) s = .next (s.enterFault .aliasViolation) :=
  unlessAlias_of rfl s _

end Sys2Proof.Machine
end

section
/-! PROOF. The ordering commands CMP, LT, LE, EQ and CLONE, and the comparison contract (R180 to R185). -/

namespace Sys2Proof.Machine

/-- Settles O36: the stages of `compare` one by one; on trimmed operands it is the comparison of the values. -/
theorem cmpOrdersByLengthThenBytes : Obligations.CmpOrdersByLengthThenBytes := by
  unfold Obligations.CmpOrdersByLengthThenBytes
  intro a c b s
  refine ⟨_, exec_cmp a b c s, compare_of_len_lt, compare_of_len_gt, fun k => compare_of_first_mismatch,
    (compare_eq_zero_iff _ _).mpr, fun ha hc => ?_⟩
  rw [compare_of_trimmed ha hc]
  exact ⟨orderWord_eq_zero_iff _ _, orderWord_eq_one_iff _ _, orderWord_eq_minus_one_iff _ _⟩

/-- Settles O37: the commands' equations; the contract because `compare` orders the ranks, which determine the registers. -/
theorem comparisonContract : Obligations.ComparisonContract := by
  unfold Obligations.ComparisonContract
  refine ⟨fun a c b s => ⟨_, exec_cmp a b c s, exec_lt a b c s, exec_le a b c s, exec_eq a b c s,
    compare_eq_zero_iff _ _, ?_⟩, fun x y => ⟨compare_self x, compare_eq_one_iff_swap x y, ?_, ?_⟩⟩
  · rintro rfl
    exact compare_self _
  · rw [compare_eq_zero_iff, compare_eq_zero_iff, eq_comm]
  · rw [compare_eq_orderWord_rank]
    exact orderWord_cases _ _

/-- Settles O38: the pair copied, or the fault for A = C. -/
theorem cloneCopiesThePair : Obligations.CloneCopiesThePair := by
  unfold Obligations.CloneCopiesThePair
  refine fun a c s => ⟨fun h => exec_clone_of_ne h s, ?_⟩
  rintro rfl
  exact exec_clone_self a s

end Sys2Proof.Machine
end

section
/-! SUPPORT. What the sums and the shifts answer, one rule per case (R200 to R206), and which of them each additive command
writes. -/

namespace Sys2Proof.Machine

theorem lt_pow_byteLen {y : Nat} (h : y < 256) : y < 256 ^ byteLen y := byteLen_eq_tlen h ▸ lt_pow_tlen y

theorem VReg.shiftUp_unchanged {r : VReg} {n : Nat} (h : r.val = 0 ∨ n = 0) : r.shiftUp n = some r := if_pos h

theorem VReg.shiftUp_grows {r : VReg} {n : Nat} (h0 : r.val ≠ 0) (hn : n ≠ 0) (hc : r.len + n ≤ Config.cap) :
    r.shiftUp n = some ⟨List.replicate n 0#8 ++ r.bytes⟩ := by
  rw [VReg.shiftUp, if_neg (not_or.mpr ⟨h0, hn⟩), if_neg (Nat.not_lt.mpr hc)]

theorem VReg.shiftUp_none {r : VReg} {n : Nat} (h0 : r.val ≠ 0) (hn : n ≠ 0) (hc : Config.cap < r.len + n) :
    r.shiftUp n = none := by
  rw [VReg.shiftUp, if_neg (not_or.mpr ⟨h0, hn⟩), if_pos hc]

theorem VReg.len_replicate_append (r : VReg) (n : Nat) :
    (VReg.mk (List.replicate n 0#8 ++ r.bytes)).len = r.len + n := by
  rw [VReg.len, List.length_append, List.length_replicate, Nat.add_comm]
  rfl

theorem VReg.shiftDown_of_len_le {r : VReg} {n : Nat} (h : r.len ≤ n) : r.shiftDown n = VReg.zero := if_pos h

theorem VReg.eq_zero_of_len_eq_zero {r : VReg} (h : r.len = 0) : r = VReg.zero :=
  VReg.ext_bytes (List.eq_nil_of_length_eq_zero h)

section
variable {a : VIdx} {s : State} {n y : Nat}

/-- A sum that fits the longer operand's length. -/
theorem writeV_plus_fits (h : (s.getV a).val + y < 256 ^ max (s.getV a).len n) :
    ∃ r, writeV a ((s.getV a).plus n y) s = .next (s.setV a r).advance ∧
      r.len = max (s.getV a).len n ∧ r.val = (s.getV a).val + y :=
  ⟨_, by rw [VReg.plus_fits h, writeV_some], len_pack _ _, val_pack h⟩

/-- A final carry that CAP has room for: one byte more holds every sum of operands of these lengths. -/
theorem writeV_plus_grows (hy : y < 256 ^ n) (h : 256 ^ max (s.getV a).len n ≤ (s.getV a).val + y)
    (hc : max (s.getV a).len n + 1 ≤ Config.cap) :
    ∃ r, writeV a ((s.getV a).plus n y) s = .next (s.setV a r).advance ∧
      r.len = max (s.getV a).len n + 1 ∧ r.val = (s.getV a).val + y :=
  ⟨_, by rw [VReg.plus_grows h hc, writeV_some], len_pack _ _, val_pack (sum_lt_pow_succ (VReg.val_lt _) hy)⟩

theorem writeV_plus_none (h : 256 ^ max (s.getV a).len n ≤ (s.getV a).val + y)
    (hc : Config.cap < max (s.getV a).len n + 1) :
    writeV a ((s.getV a).plus n y) s = .next (s.enterFault .capacityExceeded) := by
  rw [VReg.plus_none h hc, writeV_none]

end

theorem exec_add_of_ne {a c : VIdx} (h : a ≠ c) (s : State) :
    exec (.add a c) s = writeV a ((s.getV a).plus (s.getV c).len (s.getV c).val) s := unlessAlias_of_not h s _

theorem exec_add_self (a : VIdx) (s : State) : exec (.add a a) s = .next (s.enterFault .aliasViolation) :=
  unlessAlias_of rfl s _

theorem exec_addb (a : VIdx) (y : Nat) (s : State) :
    exec (.addb a y) s = writeV a ((s.getV a).plus (byteLen y) y) s := rfl

/-- INC is ADDB of 1 (R202). -/
theorem exec_inc (a : VIdx) (s : State) : exec (.inc a) s = exec (.addb a 1) s := rfl

theorem exec_mbshi (a : VIdx) (n : Nat) (s : State) : exec (.mbshi a n) s = writeV a ((s.getV a).shiftUp n) s := rfl

/-- BSHI is MBSHI of one byte (R203, R205). -/
theorem exec_bshi (a : VIdx) (s : State) : exec (.bshi a) s = exec (.mbshi a 1) s := rfl

theorem exec_bshd (a : VIdx) (b : SIdx) (s : State) : exec (.bshd a b) s =
    .next ((s.setV a ((s.getV a).shiftDown 1)).setS b (((s.getV a).byte 0).setWidth 16)).advance := rfl

theorem exec_mbshd (a : VIdx) (n : Nat) (s : State) :
    exec (.mbshd a n) s = .next (s.setV a ((s.getV a).shiftDown n)).advance := rfl

end Sys2Proof.Machine
end

section
/-! PROOF. The additive commands ADD, ADDB, INC, BSHI, BSHD, MBSHI and MBSHD (R200 to R206). -/

namespace Sys2Proof.Machine

/-- Settles O39: the three cases of the sum, and the fault for A = C. -/
theorem addGivesTheExactSum : Obligations.AddGivesTheExactSum := by
  unfold Obligations.AddGivesTheExactSum
  rintro a c s l rfl
  refine ⟨fun hne hfits => ?_, fun hne hcarry hroom => ?_, fun hne hcarry hfull => ?_, ?_⟩
  · rw [exec_add_of_ne hne]
    exact writeV_plus_fits hfits
  · rw [exec_add_of_ne hne]
    exact writeV_plus_grows (VReg.val_lt _) hcarry hroom
  · rw [faultsWith, exec_add_of_ne hne]
    exact writeV_plus_none hcarry hfull
  · rintro rfl
    exact exec_add_self a s

/-- Settles O40: the three cases of the sum, with the byte as an operand of its trimmed length. -/
theorem addbAndIncAddAByte : Obligations.AddbAndIncAddAByte := by
  unfold Obligations.AddbAndIncAddAByte
  rintro a y s l i hi rfl
  obtain ⟨hexec, hy⟩ : exec i s = writeV a ((s.getV a).plus (byteLen y) y) s ∧ y < 256 := by
    rcases hi with ⟨rfl, hy⟩ | ⟨rfl, rfl⟩
    · exact ⟨exec_addb a y s, hy⟩
    · exact ⟨exec_inc a s, by decide⟩
  rw [faultsWith, hexec]
  exact ⟨writeV_plus_fits, writeV_plus_grows (lt_pow_byteLen hy), writeV_plus_none⟩

/-- Settles O41: the three cases of the shift, BSHI being MBSHI of one byte. -/
theorem shiftUpMultiplies : Obligations.ShiftUpMultiplies := by
  unfold Obligations.ShiftUpMultiplies
  intro a y n s i hi
  have hexec : exec i s = writeV a ((s.getV a).shiftUp n) s := by
    rcases hi with ⟨rfl, rfl⟩ | ⟨rfl, rfl⟩
    · exact exec_bshi a s
    · exact exec_mbshi a n s
  rw [faultsWith, hexec]
  refine ⟨fun hsame => ?_, fun h0 hn hroom => ?_, fun h0 hn hfull => ?_⟩
  · rw [VReg.shiftUp_unchanged hsame, writeV_some, State.setV_getV]
    rfl
  · rw [VReg.shiftUp_grows h0 hn hroom]
    exact ⟨_, writeV_some a _ s, VReg.len_replicate_append _ n, by rw [VReg.val_replicate_append, Nat.mul_comm]⟩
  · rw [VReg.shiftUp_none h0 hn hfull]
    exact writeV_none a s

/-- Settles O42: what a shift down answers; a register it empties is the zero-length one. -/
theorem shiftDownDivides : Obligations.ShiftDownDivides := by
  unfold Obligations.ShiftDownDivides
  intro a b y s
  obtain ⟨hval, htrimmed, _⟩ := (s.getV a).shiftDown_spec 1
  obtain ⟨hvals, htrimmeds, _⟩ := (s.getV a).shiftDown_spec y
  refine ⟨⟨_, exec_bshd a b s, hval, htrimmed, fun hlen => ⟨?_, VReg.byte_of_len_le _ (Nat.le_of_eq hlen)⟩⟩,
    ⟨_, exec_mbshd a y s, hvals, htrimmeds, fun hlen => ?_⟩⟩
  · rw [VReg.eq_zero_of_len_eq_zero hlen]
    exact VReg.shiftDown_of_len_le (Nat.zero_le 1)
  · rw [VReg.shiftDown_of_len_le hlen]
    rfl

end Sys2Proof.Machine
end

section
/-! SUPPORT. What a subtraction answers, on either side of underflow (R230, R231), and the state a completed ADD leaves. -/

namespace Sys2Proof.Machine

theorem subtract_of_lt {x y : Nat} (h : x < y) (a : VIdx) (s : State) :
    subtract a x y s = .next (s.enterFault .underflow) := if_pos h

/-- The difference is no longer than the minuend, so it fits where the minuend does (R230). -/
theorem subtract_of_le {x y : Nat} (h : y ≤ x) (hfits : tlen x ≤ Config.cap) (a : VIdx) (s : State) :
    ∃ r, subtract a x y s = .next (s.setV a r).advance ∧ r.val + y = x ∧ r.trimmed := by
  have hnorm : norm (x - y) = some (pack (x - y) (tlen (x - y))) :=
    norm_some (Nat.le_trans (tlen_mono (Nat.sub_le x y)) hfits)
  refine ⟨pack (x - y) (tlen (x - y)), ?_, ?_, pack_trimmed _⟩
  · rw [subtract, if_neg (Nat.not_lt.mpr h), hnorm, writeV_some]
  · rw [val_pack (lt_pow_tlen _), Nat.sub_add_cancel h]

theorem exec_sub_of_ne {a c : VIdx} (h : a ≠ c) (s : State) :
    exec (.sub a c) s = subtract a (s.getV a).val (s.getV c).val s := unlessAlias_of_not h s _

theorem exec_sub_self (a : VIdx) (s : State) : exec (.sub a a) s = .next (s.enterFault .aliasViolation) :=
  unlessAlias_of rfl s _

theorem exec_dec (a : VIdx) (s : State) : exec (.dec a) s = subtract a (s.getV a).val 1 s := rfl

/-- An ADD that completes has written the exact sum, and nothing else but the PC (R200). -/
theorem exec_add_completes {a c : VIdx} (h : a ≠ c) (s : State) :
    OnCompletion (fun t => ∃ r, (s.getV a).plus (s.getV c).len (s.getV c).val = some r ∧ t = (s.setV a r).advance)
      (exec (.add a c) s) := by
  rw [exec_add_of_ne h]
  exact .writeV fun r hr => ⟨r, hr, rfl⟩

end Sys2Proof.Machine
end

section
/-! PROOF. The subtractive commands SUB and DEC, and SUB as the inverse of ADD (R230 to R232). -/

namespace Sys2Proof.Machine

/-- Settles O43: the two cases of the subtraction, the accumulator within CAP, and the fault for A = C. -/
theorem subGivesTheExactDifference : Obligations.SubGivesTheExactDifference := by
  unfold Obligations.SubGivesTheExactDifference
  intro a c s hcap
  have hfits : tlen (s.getV a).val ≤ Config.cap := Nat.le_trans (VReg.tlen_val_le _) hcap
  refine ⟨fun hne hle => ?_, fun hne hlt => ?_, ?_, fun hpos => ?_, fun hzero => ?_⟩
  · rw [exec_sub_of_ne hne]
    exact subtract_of_le hle hfits a s
  · rw [faultsWith, exec_sub_of_ne hne]
    exact subtract_of_lt hlt a s
  · rintro rfl
    exact exec_sub_self a s
  · exact subtract_of_le (Nat.one_le_iff_ne_zero.mpr hpos) hfits a s
  · exact subtract_of_lt (Nat.lt_one_iff.mpr hzero) a s

/-- Settles O44: the sum ADD leaves is not below the operand, and a trimmed register is determined by its value. -/
theorem subUndoesAdd : Obligations.SubUndoesAdd := by
  unfold Obligations.SubUndoesAdd
  intro a c s t hne hfit _ hadd hrun
  obtain ⟨sum, hplus, rfl⟩ := exec_add_completes hne s t hadd hrun
  obtain ⟨hsum, _⟩ := VReg.plus_eq_some (VReg.val_lt _) hplus
  have hfits : tlen sum.val ≤ Config.cap :=
    Nat.le_trans sum.tlen_val_le (plus_len_le hplus (hfit a) (hfit c))
  have hle : (s.getV c).val ≤ sum.val := hsum ▸ Nat.le_add_left _ _
  obtain ⟨r, hsub, hval, htrimmed⟩ := subtract_of_le hle hfits a (s.setV a sum).advance
  obtain rfl : r = (s.getV a).trim := by
    refine VReg.trimmed_ext htrimmed (VReg.trimmed_trim _) ?_
    rw [VReg.val_trim]
    exact Nat.add_right_cancel (hval.trans hsum)
  have hexec : exec (.sub a c) (s.setV a sum).advance =
      .next ((s.setV a sum).advance.setV a (s.getV a).trim).advance := by
    rw [exec_sub_of_ne hne, State.getV_advance, State.getV_advance, State.getV_setV_self,
      State.getV_setV_ne s sum hne.symm, hsub]
  have hget : ((s.setV a sum).advance.setV a (s.getV a).trim).advance.getV a = (s.getV a).trim := by
    rw [State.getV_advance, State.getV_setV_self]
  exact ⟨_, hexec, hrun, hget, fun h => hget.trans (VReg.trim_of_trimmed h)⟩

end Sys2Proof.Machine
end

section
/-! SUPPORT. What writing back the trimmed form of a number does, on either side of CAP (R11, R302), and what MUL writes. -/

namespace Sys2Proof.Machine

/-- A number of at most CAP bytes is written as the trimmed register of that value. -/
theorem writeV_norm_of_lt {x : Nat} (h : x < 256 ^ Config.cap) (a : VIdx) (s : State) :
    ∃ r, writeV a (norm x) s = .next (s.setV a r).advance ∧ r.val = x ∧ r.trimmed :=
  ⟨pack x (tlen x), by rw [norm_some ((tlen_le_iff x _).mpr h), writeV_some], val_pack (lt_pow_tlen x), pack_trimmed x⟩

/-- A number of more than CAP bytes raises the fault, and nothing is written. -/
theorem writeV_norm_of_le {x : Nat} (h : 256 ^ Config.cap ≤ x) (a : VIdx) (s : State) :
    writeV a (norm x) s = .next (s.enterFault .capacityExceeded) := by
  have hlong : Config.cap < tlen x := Nat.lt_of_not_le fun hle => Nat.not_lt.mpr h ((tlen_le_iff x _).mp hle)
  rw [norm_none hlong, writeV_none]

theorem exec_mul_of_ne {a c : VIdx} (h : a ≠ c) (s : State) :
    exec (.mul a c) s = writeV a (norm ((s.getV a).val * (s.getV c).val)) s := unlessAlias_of_not h s _

theorem exec_mul_self (a : VIdx) (s : State) : exec (.mul a a) s = .next (s.enterFault .aliasViolation) :=
  unlessAlias_of rfl s _

end Sys2Proof.Machine
end

section
/-! PROOF. The multiplication command MUL (R240). -/

namespace Sys2Proof.Machine

/-- Settles O45: the product on either side of CAP, and the fault for A = C. -/
theorem mulGivesTheExactProduct : Obligations.MulGivesTheExactProduct := by
  unfold Obligations.MulGivesTheExactProduct
  intro a c s
  refine ⟨fun hne hfits => ?_, fun hne hlong => ?_, ?_⟩
  · rw [exec_mul_of_ne hne]
    exact writeV_norm_of_lt hfits a s
  · rw [faultsWith, exec_mul_of_ne hne]
    exact writeV_norm_of_le hlong a s
  · rintro rfl
    exact exec_mul_self a s

end Sys2Proof.Machine
end

section
/-! SUPPORT. What DIV and MOD answer, one rule per case in the order of their checks (R250, R251): coinciding fields, a divisor of
value zero, and the two results written. Both results are at most the numerator, so they fit where it does. -/

namespace Sys2Proof.Machine

/-- A number no larger than the value of a register within CAP needs at most CAP bytes. -/
theorem VReg.lt_pow_cap_of_le_val {r : VReg} (h : r.len ≤ Config.cap) {x : Nat} (hx : x ≤ r.val) : x < 256 ^ Config.cap :=
  calc x ≤ r.val := hx
    _ < 256 ^ r.len := r.val_lt
    _ ≤ 256 ^ Config.cap := Nat.pow_le_pow_right (by decide) h

/-- Two numbers of at most CAP bytes are written as the trimmed registers of those values. -/
theorem writeTwo_norm_of_lt {x y : Nat} (hx : x < 256 ^ Config.cap) (hy : y < 256 ^ Config.cap) (a b : VIdx) (s : State) :
    ∃ q r, writeTwo a b (norm x) (norm y) s = .next ((s.setV a q).setV b r).advance ∧
      q.val = x ∧ r.val = y ∧ q.trimmed ∧ r.trimmed := by
  refine ⟨pack x (tlen x), pack y (tlen y), ?_, val_pack (lt_pow_tlen x), val_pack (lt_pow_tlen y), pack_trimmed x,
    pack_trimmed y⟩
  rw [norm_some ((tlen_le_iff x _).mpr hx), norm_some ((tlen_le_iff y _).mpr hy)]
  rfl

section Div
variable {a b c d : VIdx} {s : State}

theorem exec_div_of_alias (h : a = b ∨ a = c ∨ a = d ∨ b = c ∨ b = d) :
    exec (.div a b c d) s = .next (s.enterFault .aliasViolation) := unlessAlias_of h s _

theorem exec_div_of_not_alias (h : ¬ (a = b ∨ a = c ∨ a = d ∨ b = c ∨ b = d)) :
    exec (.div a b c d) s = unlessZero (s.getV d).val s
      (writeTwo a b (norm ((s.getV c).val / (s.getV d).val)) (norm ((s.getV c).val % (s.getV d).val)) s) :=
  unlessAlias_of_not h s _

theorem exec_div_of_zero (h : ¬ (a = b ∨ a = c ∨ a = d ∨ b = c ∨ b = d)) (hd : (s.getV d).val = 0) :
    exec (.div a b c d) s = .next (s.enterFault .divisionByZero) := by
  rw [exec_div_of_not_alias h, hd, unlessZero_zero]

theorem exec_div_of_ne_zero (h : ¬ (a = b ∨ a = c ∨ a = d ∨ b = c ∨ b = d)) (hd : (s.getV d).val ≠ 0) :
    exec (.div a b c d) s =
      writeTwo a b (norm ((s.getV c).val / (s.getV d).val)) (norm ((s.getV c).val % (s.getV d).val)) s := by
  rw [exec_div_of_not_alias h, unlessZero_of hd]

end Div

section Mod
variable {b c d : VIdx} {s : State}

theorem exec_mod_of_alias (h : b = c ∨ b = d) : exec (.mod b c d) s = .next (s.enterFault .aliasViolation) :=
  unlessAlias_of h s _

theorem exec_mod_of_not_alias (h : ¬ (b = c ∨ b = d)) :
    exec (.mod b c d) s =
      unlessZero (s.getV d).val s (writeV b (norm ((s.getV c).val % (s.getV d).val)) s) :=
  unlessAlias_of_not h s _

theorem exec_mod_of_zero (h : ¬ (b = c ∨ b = d)) (hd : (s.getV d).val = 0) :
    exec (.mod b c d) s = .next (s.enterFault .divisionByZero) := by
  rw [exec_mod_of_not_alias h, hd, unlessZero_zero]

theorem exec_mod_of_ne_zero (h : ¬ (b = c ∨ b = d)) (hd : (s.getV d).val ≠ 0) :
    exec (.mod b c d) s = writeV b (norm ((s.getV c).val % (s.getV d).val)) s := by
  rw [exec_mod_of_not_alias h, unlessZero_of hd]

end Mod

end Sys2Proof.Machine
end

section
/-! PROOF. The division commands DIV and MOD (R250 to R252). -/

namespace Sys2Proof.Machine

/-- Settles O46: the two faults, and the quotient and remainder of the numerator, which both fit because it does. -/
theorem divGivesQuotientAndRemainder : Obligations.DivGivesQuotientAndRemainder := by
  unfold Obligations.DivGivesQuotientAndRemainder
  intro a b c d s
  refine ⟨fun halias => exec_div_of_alias halias, fun hne hzero => exec_div_of_zero hne hzero, fun hne hd hcap => ?_⟩
  obtain ⟨q, r, hexec, hq, hr, hqt, hrt⟩ := writeTwo_norm_of_lt
    (VReg.lt_pow_cap_of_le_val hcap (Nat.div_le_self _ (s.getV d).val))
    (VReg.lt_pow_cap_of_le_val hcap (Nat.mod_le _ (s.getV d).val)) a b s
  refine ⟨q, r, (exec_div_of_ne_zero hne hd).trans hexec, ?_, ?_, hqt, hrt⟩
  · rw [hq, hr, Nat.div_add_mod']
  · rw [hr]
    exact Nat.mod_lt _ (Nat.pos_of_ne_zero hd)

/-- Settles O47: the two faults, and the remainder of the numerator, which fits because it does. -/
theorem modGivesTheRemainder : Obligations.ModGivesTheRemainder := by
  unfold Obligations.ModGivesTheRemainder
  intro b c d s
  refine ⟨fun halias => exec_mod_of_alias halias, fun hne hzero => exec_mod_of_zero hne hzero, fun hne hd hcap => ?_⟩
  obtain ⟨r, hexec, hr, hrt⟩ := writeV_norm_of_lt (VReg.lt_pow_cap_of_le_val hcap (Nat.mod_le _ (s.getV d).val)) b s
  refine ⟨r, (exec_mod_of_ne_zero hne hd).trans hexec, ?_, ⟨(s.getV c).val / (s.getV d).val, ?_⟩, hrt⟩
  · rw [hr]
    exact Nat.mod_lt _ (Nat.pos_of_ne_zero hd)
  · rw [hr, Nat.div_add_mod']

end Sys2Proof.Machine
end

section
/-! SUPPORT. What the ceiling root is, from its least property `csqrt_le_iff` (R11, R270), and what SQRT writes. -/

namespace Sys2Proof.Machine

theorem le_csqrt_mul_self (x : Nat) : x ≤ csqrt x * csqrt x := (csqrt_le_iff x _).mp (Nat.le_refl _)

theorem csqrt_le_self (x : Nat) : csqrt x ≤ x := (csqrt_le_iff x x).mpr (Nat.le_mul_self x)

/-- The root of a perfect square is exact (R270). -/
theorem csqrt_mul_self (k : Nat) : csqrt (k * k) = k :=
  Nat.le_antisymm ((csqrt_le_iff _ k).mpr (Nat.le_refl _)) (Nat.mul_self_le_mul_self_iff.mp (le_csqrt_mul_self (k * k)))

theorem exec_sqrt_of_ne {a c : VIdx} (h : a ≠ c) (s : State) :
    exec (.sqrt a c) s = writeV a (norm (csqrt (s.getV c).val)) s := unlessAlias_of_not h s _

theorem exec_sqrt_self (a : VIdx) (s : State) : exec (.sqrt a a) s = .next (s.enterFault .aliasViolation) :=
  unlessAlias_of rfl s _

end Sys2Proof.Machine
end

section
/-! PROOF. The square root command SQRT (R270, R272). -/

namespace Sys2Proof.Machine

/-- Settles O48: the ceiling root is no larger than the operand, so it fits where the operand does; and the fault for A = C. -/
theorem sqrtGivesTheCeilingRoot : Obligations.SqrtGivesTheCeilingRoot := by
  unfold Obligations.SqrtGivesTheCeilingRoot
  refine fun a c s => ⟨fun hne hcap => ?_, ?_⟩
  · obtain ⟨r, hexec, hr, htrimmed⟩ := writeV_norm_of_lt (VReg.lt_pow_cap_of_le_val hcap (csqrt_le_self _)) a s
    refine ⟨r, (exec_sqrt_of_ne hne s).trans hexec, ?_, fun m hm => ?_, htrimmed, fun k hk => ?_⟩
    · rw [hr]
      exact le_csqrt_mul_self _
    · rw [hr]
      exact (csqrt_le_iff _ m).mpr hm
    · rw [hr, hk, csqrt_mul_self]
  · rintro rfl
    exact exec_sqrt_self a s

end Sys2Proof.Machine
end

section
/-! SUPPORT. What one step of a RUNNING sequencer does that no other agent's turn disturbs (R290, R293), and the run it begins. -/

namespace Sys2Proof.Machine

theorem exec_halt (s : State) : exec .halt s = .next s.halt := rfl

theorem step_of_decoded {s : State} {i : Instr} (hm : s.sequencerMoves) (hrun : s.seq = .running)
    (hp : s.pc.toNat < Config.cmSize) (hd : decode (s.cmWord s.pc.toNat) = some i) : step s = exec i s.afterTurn :=
  (step_of_sequencerMoves hm).trans (sequencerTurn_of_decoded (s := s.afterTurn) hrun hp hd)

/-- From `s` to `t` the sequencer left RUNNING, or it went on from a command inside CM to the next index. -/
inductive StopsOrAdvances (s t : State) : Prop
  | stopped (ht : t.seq ≠ .running)
  | advanced (hp : s.pc.toNat < Config.cmSize) (hpc : t.pc.toNat = s.pc.toNat + 1) (ht : t.seq = .running)
      (hturns : t.turns = s.turns)

/-- The PC does not wrap inside CM (R37). -/
theorem State.advance_pc_toNat {s : State} (hp : s.pc.toNat < Config.cmSize) : s.advance.pc.toNat = s.pc.toNat + 1 := by
  have hcm : s.pc.toNat < 256 := hp
  have hsum : s.pc.toNat + 1 < 512 := by omega
  exact BitVec.toNat_add_of_lt hsum

theorem exec_stopsOrAdvances (i : Instr) {s : State} (hrun : s.seq = .running) (hp : s.pc.toNat < Config.cmSize) :
    ∃ t, exec i s = .next t ∧ StopsOrAdvances s t := by
  have hdid := exec_did i s
  generalize exec i s = r at hdid ⊢
  cases hdid with
  | faulted c _ => exact ⟨_, rfl, .stopped (by simp)⟩
  | halted _ => exact ⟨_, rfl, .stopped (by simp)⟩
  | completed t _ w =>
    have hpc : t.advance.pc.toNat = t.pc.toNat + 1 := State.advance_pc_toNat (w.pc ▸ hp)
    exact ⟨_, rfl, .advanced hp (w.pc ▸ hpc) (w.seq.trans hrun) w.turns⟩

theorem step_stopsOrAdvances {s : State} (hturns : s.turns = []) (hrun : s.seq = .running) :
    ∃ t, step s = .next t ∧ StopsOrAdvances s t := by
  rw [step_of_sequencerMoves (.inl hturns), State.afterTurn_of_nil hturns]
  rcases sequencerTurn_cases s with ⟨hstopped, _⟩ | ⟨_, _, he⟩ | ⟨_, _, _, he⟩ | ⟨i, _, hp, _, he⟩
  · exact absurd hrun hstopped
  · exact ⟨_, he, .stopped (by simp)⟩
  · exact ⟨_, he, .stopped (by simp)⟩
  · rw [he]
    exact exec_stopsOrAdvances i hrun hp

theorem core_run_succ_of_step {M : Host.Core} {s t : M.State} (h : M.step s = .next t) (k : Nat) :
    M.run (k + 1) s = M.run k t := by
  rw [Host.Core.run, h]

/-- With at most `m` indices of CM from the PC on, the run stops within `m + 1` steps: each step that does not stop it uses one
up, and at the end of CM the fetch faults (R307). -/
theorem run_stops_within (m : Nat) {s : State} (hturns : s.turns = []) (hrun : s.seq = .running)
    (hm : Config.cmSize ≤ s.pc.toNat + m) :
    ∃ (k : Nat) (t : State), k ≤ m + 1 ∧ Sys2Proof.core.run k s = .next t ∧ t.seq ≠ .running := by
  induction m generalizing s with
  | zero =>
    obtain ⟨t, hstep, hstopped | ⟨hp, _, _, _⟩⟩ := step_stopsOrAdvances hturns hrun
    · exact ⟨1, t, Nat.le_refl _, core_run_succ_of_step hstep 0, hstopped⟩
    · omega
  | succ m ih =>
    obtain ⟨t, hstep, hstopped | ⟨_, hpc, ht, htturns⟩⟩ := step_stopsOrAdvances hturns hrun
    · exact ⟨1, t, by omega, core_run_succ_of_step hstep 0, hstopped⟩
    · obtain ⟨k, u, hk, hrunk, hu⟩ := ih (htturns.trans hturns) ht (by omega)
      exact ⟨k + 1, u, by omega, (core_run_succ_of_step hstep k).trans hrunk, hu⟩

end Sys2Proof.Machine
end

section
/-! PROOF. The sequencer: a step is the command at the PC, HALT stops, and a run ends (R290 to R293). -/

namespace Sys2Proof.Machine

/-- Settles O10: the whole of CM is 256 indices, so the PC is within 256 of its end from any state. -/
theorem runEndsWithinCommandMemory : Obligations.RunEndsWithinCommandMemory := by
  unfold Obligations.RunEndsWithinCommandMemory
  exact fun s hturns hrun => run_stops_within Config.cmSize hturns hrun (Nat.le_add_left _ _)

/-- Settles O5: the sequencer's turn on a word that decodes. -/
theorem stepRunsDecodedCommand : Obligations.StepRunsDecodedCommand := by
  unfold Obligations.StepRunsDecodedCommand
  exact fun s i => step_of_decoded

/-- Settles O24: what HALT answers. -/
theorem haltStopsTheSequencer : Obligations.HaltStopsTheSequencer := by
  unfold Obligations.HaltStopsTheSequencer
  exact exec_halt

end Sys2Proof.Machine
end

section
/-! SUPPORT. The two round trips of the encoding, row by row (30_encoding.md sections 1 to 4): the row a command's mnemonic names
builds the command back from its word, and a word a row selects is the row's pattern with the word's own fields placed in it. -/

namespace Sys2Proof

theorem lt_of_fitsByte {n : Nat} (h : fitsByte n = true) : n < 256 := of_decide_eq_true h

theorem lt_of_fitsBytes {x y : Nat} (h : (fitsByte x && fitsByte y) = true) : x < 256 ∧ y < 256 :=
  (Bool.and_eq_true_iff.mp h).imp lt_of_fitsByte lt_of_fitsByte

theorem lt_of_fitsK {n : Nat} (h : fitsK n = true) : n < 4096 := of_decide_eq_true h

section Build
variable {α : Type} {x y k : Nat}

/-- What is built from the fields of a word of format R is built from the operands it was made of. -/
theorem build_formatR (f : Fin 16 → Fin 16 → Fin 16 → Fin 16 → α) (op : Nat) (a b c d : Fin 16) :
    f (fieldA (formatR op a b c d)) (fieldB (formatR op a b c d)) (fieldC (formatR op a b c d))
      (fieldD (formatR op a b c d)) = f a b c d := by
  rw [fieldA_formatR, fieldB_formatR, fieldC_formatR, fieldD_formatR]

theorem build_formatI (f : Fin 16 → Fin 16 → Nat → Nat → α) (op : Nat) (a b : Fin 16) (hx : x < 256) (hy : y < 256) :
    f (fieldA (formatI op a b x y)) (fieldB (formatI op a b x y)) (fieldX (formatI op a b x y))
      (fieldY (formatI op a b x y)) = f a b x y := by
  rw [fieldA_formatI _ _ _ hx hy, fieldB_formatI _ _ _ hx hy, fieldX_formatI _ _ _ hx hy, fieldY_formatI _ _ _ hy]

theorem build_formatS (f : Fin 16 → Nat → Nat → α) (op : Nat) (a : Fin 16) (hk : k < 4096) (hy : y < 256) :
    f (fieldA (formatS op a k y)) (fieldK (formatS op a k y)) (fieldY (formatS op a k y)) = f a k y := by
  rw [fieldA_formatS _ _ hy hk, fieldK_formatS _ _ hy hk, fieldY_formatS _ _ hy]

end Build

/-- The mnemonics of the rows differ (R107). -/
theorem mnemonics_nodup : (opcodeTable.map Row.mnemonic).Nodup := by decide

/-- The row at place `n` is the command's by its mnemonic, so it is the row that selects the command's word. -/
theorem decode_encode_of_row {i : Instr} (n : Nat) (hn : n < opcodeTable.length) (hrow : Laws.EncodeRow.Statement i)
    (hw : i.wellFormed = true) (hbuild : opcodeTable[n].build (encode i) = i)
    (hm : opcodeTable[n].mnemonic = Laws.EncodeRow.mnemonicOf i := by rfl) : decode (encode i) = some i := by
  obtain ⟨r, hr, hname, hsel⟩ := hrow hw
  obtain rfl : r = opcodeTable[n] :=
    List.inj_on_of_nodup_map mnemonics_nodup hr (List.getElem_mem hn) (hname.trans hm.symm)
  rw [decode_of_selects hr hsel, hbuild]

/-- The row of each command builds the command back from its word. -/
theorem decode_encode {i : Instr} (h : i.wellFormed = true) : decode (encode i) = some i := by
  cases i with
  | halt => exact decode_encode_of_row 0 (by decide) Laws.EncodeRow.halt h rfl
  | init a n =>
    exact decode_encode_of_row 1 (by decide) (Laws.EncodeRow.init a n) h
      (build_formatI (fun a _ _ y => Instr.init a y) _ a 0 (by decide) (lt_of_fitsByte h))
  | grow a =>
    exact decode_encode_of_row 2 (by decide) (Laws.EncodeRow.grow a) h (build_formatR (fun a _ _ _ => Instr.grow a) ..)
  | trim a =>
    exact decode_encode_of_row 3 (by decide) (Laws.EncodeRow.trim a) h (build_formatR (fun a _ _ _ => Instr.trim a) ..)
  | setb a k y =>
    obtain ⟨hk, hy⟩ := Bool.and_eq_true_iff.mp h
    exact decode_encode_of_row 4 (by decide) (Laws.EncodeRow.setb a k y) h
      (build_formatS Instr.setb _ a (lt_of_fitsK hk) (lt_of_fitsByte hy))
  | getb a b y =>
    exact decode_encode_of_row 5 (by decide) (Laws.EncodeRow.getb a b y) h
      (build_formatI (fun a b _ y => Instr.getb a b y) _ a b (by decide) (lt_of_fitsByte h))
  | numb a b =>
    exact decode_encode_of_row 6 (by decide) (Laws.EncodeRow.numb a b) h (build_formatR (fun a b _ _ => Instr.numb a b) ..)
  | store a b x y =>
    obtain ⟨hx, hy⟩ := lt_of_fitsBytes h
    exact decode_encode_of_row 7 (by decide) (Laws.EncodeRow.store a b x y) h (build_formatI Instr.store _ a b hx hy)
  | b10st a b x y =>
    obtain ⟨hx, hy⟩ := lt_of_fitsBytes h
    exact decode_encode_of_row 8 (by decide) (Laws.EncodeRow.b10st a b x y) h (build_formatI Instr.b10st _ a b hx hy)
  | load a b x y =>
    obtain ⟨hx, hy⟩ := lt_of_fitsBytes h
    exact decode_encode_of_row 9 (by decide) (Laws.EncodeRow.load a b x y) h (build_formatI Instr.load _ a b hx hy)
  | bufsz a b =>
    exact decode_encode_of_row 10 (by decide) (Laws.EncodeRow.bufsz a b) h
      (build_formatR (fun a b _ _ => Instr.bufsz a b) ..)
  | cmp a b c =>
    exact decode_encode_of_row 11 (by decide) (Laws.EncodeRow.cmp a b c) h
      (build_formatR (fun a b c _ => Instr.cmp a b c) ..)
  | lt a b c =>
    exact decode_encode_of_row 12 (by decide) (Laws.EncodeRow.lt a b c) h (build_formatR (fun a b c _ => Instr.lt a b c) ..)
  | le a b c =>
    exact decode_encode_of_row 13 (by decide) (Laws.EncodeRow.le a b c) h (build_formatR (fun a b c _ => Instr.le a b c) ..)
  | eq a b c =>
    exact decode_encode_of_row 14 (by decide) (Laws.EncodeRow.eq a b c) h (build_formatR (fun a b c _ => Instr.eq a b c) ..)
  | clone a c =>
    exact decode_encode_of_row 15 (by decide) (Laws.EncodeRow.clone a c) h
      (build_formatR (fun a _ c _ => Instr.clone a c) ..)
  | add a c =>
    exact decode_encode_of_row 16 (by decide) (Laws.EncodeRow.add a c) h (build_formatR (fun a _ c _ => Instr.add a c) ..)
  | addb a y =>
    exact decode_encode_of_row 17 (by decide) (Laws.EncodeRow.addb a y) h
      (build_formatI (fun a _ _ y => Instr.addb a y) _ a 0 (by decide) (lt_of_fitsByte h))
  | inc a =>
    exact decode_encode_of_row 18 (by decide) (Laws.EncodeRow.inc a) h (build_formatR (fun a _ _ _ => Instr.inc a) ..)
  | bshi a =>
    exact decode_encode_of_row 19 (by decide) (Laws.EncodeRow.bshi a) h (build_formatR (fun a _ _ _ => Instr.bshi a) ..)
  | bshd a b =>
    exact decode_encode_of_row 20 (by decide) (Laws.EncodeRow.bshd a b) h
      (build_formatR (fun a b _ _ => Instr.bshd a b) ..)
  | mbshi a y =>
    exact decode_encode_of_row 21 (by decide) (Laws.EncodeRow.mbshi a y) h
      (build_formatI (fun a _ _ y => Instr.mbshi a y) _ a 0 (by decide) (lt_of_fitsByte h))
  | mbshd a y =>
    exact decode_encode_of_row 22 (by decide) (Laws.EncodeRow.mbshd a y) h
      (build_formatI (fun a _ _ y => Instr.mbshd a y) _ a 0 (by decide) (lt_of_fitsByte h))
  | sub a c =>
    exact decode_encode_of_row 23 (by decide) (Laws.EncodeRow.sub a c) h (build_formatR (fun a _ c _ => Instr.sub a c) ..)
  | dec a =>
    exact decode_encode_of_row 24 (by decide) (Laws.EncodeRow.dec a) h (build_formatR (fun a _ _ _ => Instr.dec a) ..)
  | mul a c =>
    exact decode_encode_of_row 25 (by decide) (Laws.EncodeRow.mul a c) h (build_formatR (fun a _ c _ => Instr.mul a c) ..)
  | div a b c d =>
    exact decode_encode_of_row 26 (by decide) (Laws.EncodeRow.div a b c d) h (build_formatR Instr.div ..)
  | mod b c d =>
    exact decode_encode_of_row 27 (by decide) (Laws.EncodeRow.mod b c d) h
      (build_formatR (fun _ b c d => Instr.mod b c d) ..)
  | sqrt a c =>
    exact decode_encode_of_row 28 (by decide) (Laws.EncodeRow.sqrt a c) h (build_formatR (fun a _ c _ => Instr.sqrt a c) ..)

/-- The bits of a word that its field of `k` bits at `lo` holds. -/
def fieldMask (lo k : Nat) : Word := (BitVec.allOnes k).setWidth 32 <<< lo

/-- A field read and placed back is the word under the field's mask. -/
theorem placed_field (w : Word) (lo k : Nat) : placed (w.extractLsb' lo k).toNat lo = w &&& fieldMask lo k := by
  refine BitVec.eq_of_getLsbD_eq fun i hi => ?_
  rw [getLsbD_placed_field, BitVec.getLsbD_and, fieldMask, BitVec.getLsbD_shiftLeft, BitVec.getLsbD_setWidth,
    BitVec.getLsbD_allOnes, Bool.and_comm]
  congr 1
  grind

/-- A register field is the word's own where the command uses it and zero where not: the word under the field's mask, or under
the empty one. -/
theorem placed_operand (w : Word) (used : Bool) (lo : Nat) :
    placed (cond used (w.extractLsb' lo 4).toFin 0 : Fin 16).val lo = w &&& cond used (fieldMask lo 4) 0#32 := by
  cases used with
  | false => simp [placed]
  | true => exact placed_field w lo 4

/-- The immediate X is likewise the word's own where the command uses it. -/
theorem placed_immediate (w : Word) (used : Bool) :
    placed (cond used (fieldX w) 0) 8 = w &&& cond used (fieldMask 8 8) 0#32 := by
  cases used with
  | false => simp [placed]
  | true => exact placed_field w 8 8

theorem placed_fieldA (w : Word) : placed (fieldA w).val 20 = w &&& fieldMask 20 4 := placed_field w 20 4

theorem placed_fieldY (w : Word) : placed (fieldY w) 0 = w &&& fieldMask 0 8 := placed_field w 0 8

theorem placed_fieldK (w : Word) : placed (fieldK w) 8 = w &&& fieldMask 8 12 := placed_field w 8 12

section Encode
variable {w mask pattern : Word} {op : Nat}

/-- A word a row selects is the row's pattern and the bits the mask leaves out. -/
theorem pattern_or_rest (h : w &&& mask = pattern) {rest : Word} (hrest : rest = ~~~mask) : pattern ||| (w &&& rest) = w := by
  rw [hrest, ← h, ← BitVec.and_or_distrib_left, BitVec.or_not_self, BitVec.and_allOnes]

/-- A word of format R that its row selects, from the fields the command uses: they are the ones the row's mask leaves out. -/
theorem formatR_of_fields (a b c d : Bool) (h : w &&& mask = pattern) (hop : placed op 24 = pattern := by decide)
    (hm : cond a (fieldMask 20 4) 0#32 ||| cond b (fieldMask 16 4) 0#32 ||| cond c (fieldMask 12 4) 0#32 |||
      cond d (fieldMask 8 4) 0#32 = ~~~mask := by decide) :
    formatR op (cond a (fieldA w) 0) (cond b (fieldB w) 0) (cond c (fieldC w) 0) (cond d (fieldD w) 0) = w := by
  rw [formatR, hop, fieldA, fieldB, fieldC, fieldD]
  simp only [placed_operand, BitVec.or_assoc, ← BitVec.and_or_distrib_left] at hm ⊢
  exact pattern_or_rest h hm

/-- A word of format I that its row selects; every command of the format uses A and Y. -/
theorem formatI_of_fields (b x : Bool) (h : w &&& mask = pattern) (hop : placed op 24 = pattern := by decide)
    (hm : fieldMask 20 4 ||| cond b (fieldMask 16 4) 0#32 ||| cond x (fieldMask 8 8) 0#32 ||| fieldMask 0 8 = ~~~mask := by
      decide) :
    formatI op (fieldA w) (cond b (fieldB w) 0) (cond x (fieldX w) 0) (fieldY w) = w := by
  rw [formatI, hop, placed_fieldA, fieldB, placed_operand, placed_immediate, placed_fieldY]
  simp only [BitVec.or_assoc, ← BitVec.and_or_distrib_left] at hm ⊢
  exact pattern_or_rest h hm

/-- A word of format S that its row selects. -/
theorem formatS_of_fields (h : w &&& mask = pattern) (hop : placed op 24 = pattern := by decide)
    (hm : fieldMask 20 4 ||| fieldMask 8 12 ||| fieldMask 0 8 = ~~~mask := by decide) :
    formatS op (fieldA w) (fieldK w) (fieldY w) = w := by
  rw [formatS, hop, placed_fieldA, placed_fieldK, placed_fieldY]
  simp only [BitVec.or_assoc, ← BitVec.and_or_distrib_left] at hm ⊢
  exact pattern_or_rest h hm

end Encode

/-- A word the row selects builds a well-formed command, whose own word it is. -/
def Row.RoundTrips (r : Row) : Prop :=
  ∀ w : Word, w &&& r.mask = r.pattern → (r.build w).wellFormed = true ∧ encode (r.build w) = w

theorem fitsByte_fieldY (w : Word) : fitsByte (fieldY w) = true := decide_eq_true (w.extractLsb' 0 8).isLt

theorem fitsByte_fieldX_and_fieldY (w : Word) : (fitsByte (fieldX w) && fitsByte (fieldY w)) = true :=
  Bool.and_eq_true_iff.mpr ⟨decide_eq_true (w.extractLsb' 8 8).isLt, fitsByte_fieldY w⟩

theorem fitsK_fieldK_and_fieldY (w : Word) : (fitsK (fieldK w) && fitsByte (fieldY w)) = true :=
  Bool.and_eq_true_iff.mpr ⟨decide_eq_true (w.extractLsb' 8 12).isLt, fitsByte_fieldY w⟩

theorem rowsStorage_roundTrip : ∀ r ∈ rowsStorage, r.RoundTrips := by
  simp only [rowsStorage, List.forall_mem_cons]
  refine ⟨?halt, ?init, ?grow, ?trim, ?setb, ?getb, ?numb, fun _ h => nomatch h⟩
  case halt => exact fun w h => ⟨rfl, h.symm.trans BitVec.and_allOnes⟩
  case init => exact fun w h => ⟨fitsByte_fieldY w, formatI_of_fields false false h⟩
  case grow => exact fun w h => ⟨rfl, formatR_of_fields true false false false h⟩
  case trim => exact fun w h => ⟨rfl, formatR_of_fields true false false false h⟩
  case setb => exact fun w h => ⟨fitsK_fieldK_and_fieldY w, formatS_of_fields h⟩
  case getb => exact fun w h => ⟨fitsByte_fieldY w, formatI_of_fields true false h⟩
  case numb => exact fun w h => ⟨rfl, formatR_of_fields true true false false h⟩

theorem rowsCodec_roundTrip : ∀ r ∈ rowsCodec, r.RoundTrips := by
  simp only [rowsCodec, List.forall_mem_cons]
  refine ⟨?store, ?b10st, ?load, ?bufsz, fun _ h => nomatch h⟩
  case store => exact fun w h => ⟨fitsByte_fieldX_and_fieldY w, formatI_of_fields true true h⟩
  case b10st => exact fun w h => ⟨fitsByte_fieldX_and_fieldY w, formatI_of_fields true true h⟩
  case load => exact fun w h => ⟨fitsByte_fieldX_and_fieldY w, formatI_of_fields true true h⟩
  case bufsz => exact fun w h => ⟨rfl, formatR_of_fields true true false false h⟩

theorem rowsOrdering_roundTrip : ∀ r ∈ rowsOrdering, r.RoundTrips := by
  simp only [rowsOrdering, List.forall_mem_cons]
  refine ⟨?cmp, ?lt, ?le, ?eq, ?clone, fun _ h => nomatch h⟩
  case cmp => exact fun w h => ⟨rfl, formatR_of_fields true true true false h⟩
  case lt => exact fun w h => ⟨rfl, formatR_of_fields true true true false h⟩
  case le => exact fun w h => ⟨rfl, formatR_of_fields true true true false h⟩
  case eq => exact fun w h => ⟨rfl, formatR_of_fields true true true false h⟩
  case clone => exact fun w h => ⟨rfl, formatR_of_fields true false true false h⟩

theorem rowsAdditive_roundTrip : ∀ r ∈ rowsAdditive, r.RoundTrips := by
  simp only [rowsAdditive, List.forall_mem_cons]
  refine ⟨?add, ?addb, ?inc, ?bshi, ?bshd, ?mbshi, ?mbshd, fun _ h => nomatch h⟩
  case add => exact fun w h => ⟨rfl, formatR_of_fields true false true false h⟩
  case addb => exact fun w h => ⟨fitsByte_fieldY w, formatI_of_fields false false h⟩
  case inc => exact fun w h => ⟨rfl, formatR_of_fields true false false false h⟩
  case bshi => exact fun w h => ⟨rfl, formatR_of_fields true false false false h⟩
  case bshd => exact fun w h => ⟨rfl, formatR_of_fields true true false false h⟩
  case mbshi => exact fun w h => ⟨fitsByte_fieldY w, formatI_of_fields false false h⟩
  case mbshd => exact fun w h => ⟨fitsByte_fieldY w, formatI_of_fields false false h⟩

theorem rowsArithmetic_roundTrip : ∀ r ∈ rowsArithmetic, r.RoundTrips := by
  simp only [rowsArithmetic, List.forall_mem_cons]
  refine ⟨?sub, ?dec, ?mul, ?div, ?mod, ?sqrt, fun _ h => nomatch h⟩
  case sub => exact fun w h => ⟨rfl, formatR_of_fields true false true false h⟩
  case dec => exact fun w h => ⟨rfl, formatR_of_fields true false false false h⟩
  case mul => exact fun w h => ⟨rfl, formatR_of_fields true false true false h⟩
  case div => exact fun w h => ⟨rfl, formatR_of_fields true true true true h⟩
  case mod => exact fun w h => ⟨rfl, formatR_of_fields false true true true h⟩
  case sqrt => exact fun w h => ⟨rfl, formatR_of_fields true false true false h⟩

/-- Every row of the table makes the round trip. -/
theorem opcodeTable_roundTrip : ∀ r ∈ opcodeTable, r.RoundTrips := by
  simp only [opcodeTable, List.forall_mem_append]
  exact ⟨⟨⟨⟨rowsStorage_roundTrip, rowsCodec_roundTrip⟩, rowsOrdering_roundTrip⟩, rowsAdditive_roundTrip⟩,
    rowsArithmetic_roundTrip⟩

/-- A command the decoder gives was built by a row that selects the word (R110). -/
theorem row_of_decode {w : Word} {i : Instr} (h : decode w = some i) :
    ∃ r ∈ opcodeTable, w &&& r.mask = r.pattern ∧ i = r.build w := by
  obtain ⟨r, hfind, rfl⟩ := Option.map_eq_some_iff.mp h
  have hsel : r.selects w = true := by simpa using List.find?_some hfind
  exact ⟨r, List.mem_of_find?_eq_some hfind, Row.selects_iff.mp hsel, rfl⟩

end Sys2Proof
end

section
/-! PROOF. Decoding and encoding are inverse to each other (30_encoding.md). -/

namespace Sys2Proof.Machine

/-- Settles O1: the row of the command's mnemonic is the one the decoder takes, and it reads the operands back. -/
theorem decodeOfEncode : Obligations.DecodeOfEncode := by
  unfold Obligations.DecodeOfEncode
  exact fun _ => decode_encode

/-- Settles O2: the word is the selecting row's pattern together with the fields the row reads. -/
theorem encodeOfDecode : Obligations.EncodeOfDecode := by
  unfold Obligations.EncodeOfDecode
  intro w i h
  obtain ⟨r, hr, hsel, rfl⟩ := row_of_decode h
  exact opcodeTable_roundTrip r hr w hsel

end Sys2Proof.Machine
end

section
/-! SUPPORT. The invariant (R31, R39, R70, R71) is kept by every operation a step is built from, and by the two agents' turns. -/

namespace Sys2Proof.Machine

/-- Power-on reset meets the invariant: nothing is listed, the registers are empty. -/
theorem State.reset_inv : State.reset.Inv where
  regsFit := by show ∀ i, (State.reset.getV i).len ≤ Config.cap; decide
  cmWf := .nil
  cmBelow := by simp [State.reset, Memory.below]
  tbWf := .nil
  tbBelow := by simp [State.reset, Memory.below]
  causeSet := by decide
  cmDrawn := by decide
  tbDrawn := by decide

theorem State.powerOn_inv (s : State) : s.powerOn.Inv :=
  have hr := State.reset_inv
  ⟨hr.regsFit, hr.cmWf, hr.cmBelow, hr.tbWf, hr.tbBelow, hr.causeSet, Nat.lt_add_of_pos_right Nat.two_pos, Nat.lt_succ_self _⟩

/-- The offsets of CM end at CMSIZE words (R320). -/
theorem lt_of_hostReg_cm {o k : Nat} (h : hostReg o = .cm k) : k < Config.cmSize := by
  unfold hostReg hostRegAligned at h
  split_ifs at h
  obtain rfl := HostReg.cm.inj h
  show _ < 256
  omega

/-- The offsets of TB end at TBSIZE bytes (R320). -/
theorem lt_of_hostReg_tb {o k : Nat} (h : hostReg o = .tb k) : 4 * k + 4 ≤ Config.tbSize := by
  unfold hostReg hostRegAligned at h
  split_ifs at h
  obtain rfl := HostReg.tb.inj h
  show _ ≤ 256
  omega

namespace State.Inv
variable {s : State} (h : s.Inv)
include h

theorem afterTurn : s.afterTurn.Inv :=
  ⟨h.regsFit, h.cmWf, h.cmBelow, h.tbWf, h.tbBelow, h.causeSet, h.cmDrawn, h.tbDrawn⟩

theorem cause_eq_none (hs : s.seq ≠ .faulted) : s.cause = .none := not_not.mp (mt h.causeSet.mp hs)

theorem enterFault {c : Cause} (hc : c ≠ .none) : (s.enterFault c).Inv :=
  ⟨h.regsFit, h.cmWf, h.cmBelow, h.tbWf, h.tbBelow, by simp [hc], h.cmDrawn, h.tbDrawn⟩

theorem halt (hs : s.seq = .running) : s.halt.Inv :=
  ⟨h.regsFit, h.cmWf, h.cmBelow, h.tbWf, h.tbBelow, by simp [h.cause_eq_none (by simp [hs])], h.cmDrawn, h.tbDrawn⟩

theorem start : s.start.Inv := by
  by_cases hs : s.seq = .running
  · rwa [State.start_of_running hs]
  · rw [State.start_of_stopped hs]
    exact ⟨h.regsFit, h.cmWf, h.cmBelow, h.tbWf, h.tbBelow, by simp, h.cmDrawn, h.tbDrawn⟩

theorem softReset : s.softReset.Inv := by
  have hr := State.reset_inv
  unfold State.softReset
  split
  · exact ⟨hr.regsFit, h.cmWf, h.cmBelow, hr.tbWf, hr.tbBelow, hr.causeSet, Nat.lt_succ_of_lt h.cmDrawn, Nat.lt_succ_self _⟩
  · exact ⟨hr.regsFit, h.cmWf, h.cmBelow, h.tbWf, h.tbBelow, hr.causeSet, h.cmDrawn, h.tbDrawn⟩

theorem whenStopped {t : State} (ht : t.Inv) : (s.whenStopped t).Inv := by
  unfold State.whenStopped
  split
  · exact h
  · exact ht

/-- What a completed command has written keeps the invariant. -/
theorem wrote {i : Instr} {t : State} (w : Wrote i s t) : t.advance.Inv where
  regsFit := w.fits h.regsFit
  cmWf := w.cm ▸ h.cmWf
  cmBelow := w.cm ▸ h.cmBelow
  tbWf := w.tbWf h.tbWf
  tbBelow := w.tbBelow h.tbBelow
  causeSet := by simpa [w.cause, w.seq] using h.causeSet
  cmDrawn := by simpa [w.cmDraw, w.draws] using h.cmDrawn
  tbDrawn := by simpa [w.tbDraw, w.draws] using h.tbDrawn

theorem did {i : Instr} {t : State} (hs : s.seq = .running) (hd : Did i s (.next t)) : t.Inv := by
  cases hd with
  | faulted c hc => exact h.enterFault hc
  | halted _ => exact h.halt hs
  | completed t _ w => exact h.wrote w

theorem sequencerTurn {t : State} (ht : sequencerTurn s = .next t) : t.Inv := by
  rcases sequencerTurn_cases s with ⟨_, he⟩ | ⟨_, _, he⟩ | ⟨_, _, _, he⟩ | ⟨i, hs, _, _, he⟩ <;> rw [he] at ht
  case inl => cases ht; exact h
  case inr.inl => cases ht; exact h.enterFault (by decide)
  case inr.inr.inl => cases ht; exact h.enterFault (by decide)
  case inr.inr.inr => exact h.did hs (ht ▸ exec_did i s)

theorem hostRead (addr : Nat) : (s.hostRead addr).Inv := by
  unfold State.hostRead
  split
  · exact h
  · next o _ =>
    obtain ⟨data, n, he, hn⟩ := s.hostReadReg_frame (hostReg o)
    rw [he]
    exact ⟨h.regsFit, h.cmWf, h.cmBelow, h.tbWf, h.tbBelow, h.causeSet, Nat.lt_of_lt_of_le h.cmDrawn hn,
      Nat.lt_of_lt_of_le h.tbDrawn hn⟩

theorem hostWriteReg (data : Word) {o : Nat} {r : HostReg} (hr : hostReg o = r) : (s.hostWriteReg data r).Inv := by
  cases r with
  | ctrl =>
    rw [State.hostWriteReg, State.writeCtrl]
    split
    · exact h.softReset
    · split
      · exact h.start
      · exact h
  | pc => exact h.whenStopped ⟨h.regsFit, h.cmWf, h.cmBelow, h.tbWf, h.tbBelow, h.causeSet, h.cmDrawn, h.tbDrawn⟩
  | cm k =>
    exact h.whenStopped ⟨h.regsFit, Memory.wf_set h.cmWf k data, Memory.below_set h.cmBelow (lt_of_hostReg_cm hr) data,
      h.tbWf, h.tbBelow, h.causeSet, h.cmDrawn, h.tbDrawn⟩
  | tb k =>
    exact h.whenStopped ⟨h.regsFit, h.cmWf, h.cmBelow, Memory.wf_setAll h.tbWf _ (wordBytes data),
      Memory.below_setAll h.tbBelow (wordBytes data) (lt_of_hostReg_tb hr), h.causeSet, h.cmDrawn, h.tbDrawn⟩
  | _ => exact h

theorem hostWrite (addr : Nat) (data : Word) : (s.hostWrite addr data).Inv := by
  unfold State.hostWrite
  split
  · exact h
  · exact h.hostWriteReg data rfl

theorem takeTurn {turn : Turn} {t : State} (ht : takeTurn turn s = .next t) : t.Inv := by
  cases turn with
  | sequencer => exact h.sequencerTurn ht
  | hostRead addr => cases ht; exact h.hostRead addr
  | hostWrite addr data => cases ht; exact h.hostWrite addr data
  | powerOn => cases ht; exact s.powerOn_inv

end State.Inv

end Sys2Proof.Machine
end

section
/-! PROOF. The invariant holds at power-on reset and every step keeps it. -/

namespace Sys2Proof.Machine

/-- Settles O12: nothing is listed at reset, and the registers are empty. -/
theorem resetMeetsInvariant : Obligations.ResetMeetsInvariant := by
  unfold Obligations.ResetMeetsInvariant
  exact State.reset_inv

/-- Settles O13: the turn taken keeps the invariant, whichever agent's it is. -/
theorem stepKeepsTheInvariant : Obligations.StepKeepsTheInvariant := by
  unfold Obligations.StepKeepsTheInvariant
  intro s t h hstep
  rcases sequencerMoves_or s with hm | ⟨turn, rest, hturns, _⟩
  · exact h.afterTurn.sequencerTurn (step_of_sequencerMoves hm ▸ hstep)
  · exact h.afterTurn.takeTurn (step_of_turn hturns ▸ hstep)

end Sys2Proof.Machine
end

section
/-! SUPPORT. Every turn answers a next state, and what that state is after a command of a RUNNING sequencer. -/

namespace Sys2Proof.Machine

theorem Did.isNext {i : Instr} {s : State} {k : Result} (h : Did i s k) : ∃ t, k = .next t := by
  cases h with
  | faulted c _ => exact ⟨_, rfl⟩
  | halted _ => exact ⟨_, rfl⟩
  | completed t _ _ => exact ⟨_, rfl⟩

theorem sequencerTurn_isNext (s : State) : ∃ t, sequencerTurn s = .next t := by
  rcases sequencerTurn_cases s with ⟨_, he⟩ | ⟨_, _, he⟩ | ⟨_, _, _, he⟩ | ⟨i, _, _, _, he⟩
  · exact ⟨_, he⟩
  · exact ⟨_, he⟩
  · exact ⟨_, he⟩
  · rw [he]
    exact (exec_did i s).isNext

theorem takeTurn_isNext (turn : Turn) (s : State) : ∃ t, takeTurn turn s = .next t := by
  cases turn with
  | sequencer => exact sequencerTurn_isNext s
  | hostRead addr => exact ⟨_, rfl⟩
  | hostWrite addr data => exact ⟨_, rfl⟩
  | powerOn => exact ⟨_, rfl⟩

/-- What a command of a RUNNING sequencer does to STATE and PC (R290, R292, R300). -/
theorem exec_seq_pc {i : Instr} {s t : State} (hrun : s.seq = .running) (h : exec i s = .next t) :
    (t.seq = .running ∧ i ≠ .halt ∧ t.pc = s.pc + 1) ∨ (t.seq = .halted ∧ i = .halt ∧ t.pc = s.pc) ∨
    (t.seq = .faulted ∧ t.pc = s.pc) := by
  have hdid := exec_did i s
  rw [h] at hdid
  cases hdid with
  | faulted c _ => exact .inr (.inr ⟨rfl, rfl⟩)
  | halted hi => exact .inr (.inl ⟨rfl, hi, rfl⟩)
  | completed t hi w => exact .inl ⟨w.seq.trans hrun, hi, congrArg (· + 1) w.pc⟩

/-- The command at the last index of CM, where it completes, leaves PC at CMSIZE (R307). -/
theorem exec_last_pc {i : Instr} {s t : State} (hrun : s.seq = .running) (hpc : s.pc = 255)
    (h : exec i s = .next t) (ht : t.seq = .running) : t.pc = 256 := by
  rcases exec_seq_pc hrun h with ⟨_, _, hnext⟩ | ⟨hx, _⟩ | ⟨hx, _⟩
  · rw [hnext, hpc]
    rfl
  · rw [hx] at ht; cases ht
  · rw [hx] at ht; cases ht

theorem State.start_pc (s : State) : s.start.pc = s.pc := by
  unfold State.start
  split <;> rfl

/-- The opcodes of a fetched word and of a row decide whether the row selects it: a word whose bits under the mask of the row of
its opcode differ from the row's pattern is no command (R108, R109). -/
theorem decode_eq_none_of_bits {w : Word} {r : Row} (hr : r ∈ opcodeTable) (hop : opcodeOf w = opcodeOf r.pattern)
    (hbits : w &&& r.mask ≠ r.pattern) : decode w = none := by
  refine decode_eq_none_iff.mpr fun t ht hsel => hbits ?_
  obtain rfl : r = t := row_eq_of_opcodeOf_eq hr ht (hop.symm.trans (opcodeOf_of_selects ht hsel))
  exact Row.selects_iff.mp hsel

/-- A word whose opcode no row has is no command (R109). -/
theorem decode_eq_none_of_opcode {w : Word} (h : ∀ r ∈ opcodeTable, opcodeOf w ≠ opcodeOf r.pattern) : decode w = none :=
  decode_eq_none_iff.mpr fun r hr hsel => h r hr (opcodeOf_of_selects hr hsel)

theorem step_of_illegal {s : State} (hm : s.sequencerMoves) (hrun : s.seq = .running) (hp : s.pc.toNat < Config.cmSize)
    (hd : decode (s.cmWord s.pc.toNat) = none) : step s = .next (s.afterTurn.enterFault .illegalCommand) :=
  (step_of_sequencerMoves hm).trans (sequencerTurn_of_illegal (s := s.afterTurn) hrun hp hd)

theorem step_of_range {s : State} (hm : s.sequencerMoves) (hrun : s.seq = .running) (hp : Config.cmSize ≤ s.pc.toNat) :
    step s = .next (s.afterTurn.enterFault .fetchRange) :=
  (step_of_sequencerMoves hm).trans (sequencerTurn_of_range (s := s.afterTurn) hrun hp)

/-- A command of a RUNNING sequencer that faults has written nothing but STATE and CAUSE (R311). -/
theorem exec_faulted {i : Instr} {s t : State} (hrun : s.seq = .running) (h : exec i s = .next t) (ht : t.seq = .faulted) :
    t = s.enterFault t.cause ∧ t.cause ≠ .none := by
  have hdid := exec_did i s
  rw [h] at hdid
  cases hdid with
  | faulted c hc => exact ⟨rfl, hc⟩
  | halted _ => cases ht
  | completed t _ w => rw [State.advance_seq, w.seq, hrun] at ht; cases ht

theorem sequencerTurn_faulted {s t : State} (hrun : s.seq = .running) (h : sequencerTurn s = .next t)
    (ht : t.seq = .faulted) : t = s.enterFault t.cause ∧ t.cause ≠ .none := by
  rcases sequencerTurn_cases s with ⟨hx, _⟩ | ⟨_, _, he⟩ | ⟨_, _, _, he⟩ | ⟨i, _, _, _, he⟩
  · exact absurd hrun hx
  · cases he.symm.trans h; exact ⟨rfl, by simp⟩
  · cases he.symm.trans h; exact ⟨rfl, by simp⟩
  · exact exec_faulted hrun (he ▸ h) ht

end Sys2Proof.Machine
end

section
/-! PROOF. What a step of the sequencer leaves: a next state always, the PC, the two faults of the fetch and the decoder, and
nothing of a faulting command (R306, R307, R311). -/

namespace Sys2Proof.Machine

/-- Settles O9: the turn of each agent answers a next state. -/
theorem everyStepAnswersNext : Obligations.EveryStepAnswersNext := by
  unfold Obligations.EveryStepAnswersNext
  intro s
  rcases sequencerMoves_or s with hm | ⟨turn, rest, hturns, _⟩
  · rw [step_of_sequencerMoves hm]
    exact sequencerTurn_isNext _
  · rw [step_of_turn hturns]
    exact takeTurn_isNext turn _

/-- Settles O11: the three outcomes of a command, and 255 + 1 in 9 bits. -/
theorem pcAdvancesOnCompletionOnly : Obligations.PcAdvancesOnCompletionOnly := by
  unfold Obligations.PcAdvancesOnCompletionOnly
  refine ⟨fun i s t => exec_seq_pc, fun i s t hrun hpc h ht => ?_⟩
  rw [exec_last_pc hrun hpc h ht]
  rfl

/-- Settles O6: the fetch that faults, and the two ways the PC gets there. -/
theorem fetchOutOfRangeFaults : Obligations.FetchOutOfRangeFaults := by
  unfold Obligations.FetchOutOfRangeFaults
  exact ⟨fun s => step_of_range, fun i s t => exec_last_pc, State.start_pc⟩

/-- Settles O7: both kinds of word decode to nothing. -/
theorem illegalWordFaults : Obligations.IllegalWordFaults := by
  unfold Obligations.IllegalWordFaults
  exact fun s hm hrun hp => ⟨fun h => step_of_illegal hm hrun hp (decode_eq_none_of_opcode h),
    fun r hr hop hbits => step_of_illegal hm hrun hp (decode_eq_none_of_bits hr hop hbits)⟩

/-- Settles O14: the fetch, the decoder and every command take a fault by `enterFault` alone. -/
theorem faultsArePrecise : Obligations.FaultsArePrecise := by
  unfold Obligations.FaultsArePrecise
  exact fun s t hm hrun h ht => sequencerTurn_faulted (s := s.afterTurn) hrun (step_of_sequencerMoves hm ▸ h) ht

end Sys2Proof.Machine
end

section
/-! SUPPORT. A value register that a computation neither reads nor writes does not matter to it: changing the register before is
changing it after, rule by rule for the shared operations, and then for every command. -/

namespace Sys2Proof.Machine

/-- The outcome with its next state changed. -/
def onNext (f : State → State) : Result → Result
  | .next s => .next (f s)
  | .fault r => .fault r
  | .refused r => .refused r

theorem State.setV_comm (s : State) {i j : VIdx} (h : i ≠ j) (x y : VReg) :
    (s.setV i x).setV j y = (s.setV j y).setV i x := by
  have hv : (s.v.set i.val x).set j.val y = (s.v.set j.val y).set i.val x := Vector.set_comm x y (Fin.val_ne_of_ne h)
  simp only [State.setV, hv]

/-- The register `r`, set to `x` before or after `k` runs from `s`, gives one outcome. -/
def Ignores (r : VIdx) (x : VReg) (s : State) (k : State → Result) : Prop :=
  k (s.setV r x) = onNext (fun t => t.setV r x) (k s)

namespace Ignores
variable {r : VIdx} {x : VReg} {s : State}

theorem complete {f : State → State} (hf : f (s.setV r x) = (f s).setV r x) :
    Ignores r x s fun s => complete (f s) := by
  rw [Ignores, hf]
  rfl

theorem writeS {y : State → Scalar} {f : State → State} (b : SIdx) (hy : y (s.setV r x) = y s)
    (hf : f (s.setV r x) = (f s).setV r x) : Ignores r x s fun s => writeS b (y s) (f s) := by
  rw [Ignores, hf, hy]
  rfl

theorem writeV {a : VIdx} {y : State → Option VReg} (ha : a ≠ r) (hy : y (s.setV r x) = y s) :
    Ignores r x s fun s => writeV a (y s) s := by
  rw [Ignores, hy]
  cases y s with
  | none => rfl
  | some y => rw [writeV_some, writeV_some, State.setV_comm s ha.symm]; rfl

theorem writeTwo {a b : VIdx} {y z : State → Option VReg} (ha : a ≠ r) (hb : b ≠ r) (hy : y (s.setV r x) = y s)
    (hz : z (s.setV r x) = z s) : Ignores r x s fun s => writeTwo a b (y s) (z s) s := by
  rw [Ignores, hy, hz]
  cases y s with
  | none => rfl
  | some y =>
    cases z s with
    | none => rfl
    | some z =>
      show Machine.complete _ = onNext _ (Machine.complete _)
      rw [State.setV_comm s ha.symm, State.setV_comm _ hb.symm]
      rfl

theorem unlessAlias {p : Prop} [Decidable p] {k : State → Result} (hk : Ignores r x s k) :
    Ignores r x s fun s => unlessAlias p s (k s) := by
  by_cases hp : p
  · simp only [Ignores, unlessAlias_of hp]; rfl
  · simpa only [Ignores, unlessAlias_of_not hp] using hk

theorem unlessZero {d : State → Nat} {k : State → Result} (hd : d (s.setV r x) = d s) (hk : Ignores r x s k) :
    Ignores r x s fun s => unlessZero (d s) s (k s) := by
  by_cases h0 : d s = 0
  · simp only [Ignores, hd, h0, unlessZero_zero]; rfl
  · simpa only [Ignores, hd, unlessZero_of h0] using hk

theorem inBuffer {m n : Nat} {k : State → Result} (hk : Ignores r x s k) : Ignores r x s fun s => inBuffer m n s (k s) := by
  rcases Nat.lt_or_ge Config.tbSize (m + n) with h | h
  · simp only [Ignores, inBuffer_of_not h]; rfl
  · simpa only [Ignores, inBuffer_of h] using hk

theorem subtract {a : VIdx} {m n : State → Nat} (ha : a ≠ r) (hm : m (s.setV r x) = m s) (hn : n (s.setV r x) = n s) :
    Ignores r x s fun s => subtract a (m s) (n s) s := by
  have hw : Ignores r x s fun s => Machine.writeV a (norm (m s - n s)) s := writeV ha (by rw [hm, hn])
  rcases Nat.lt_or_ge (m s) (n s) with h | h
  · simp only [Ignores, hm, hn, subtract_of_lt h]; rfl
  · simpa only [Ignores, Machine.subtract, hm, hn, if_neg (Nat.not_lt.mpr h)] using hw

theorem storeText {t : State → List Byte} (c : Byte) (b : SIdx) (m n : Nat) (ht : t (s.setV r x) = t s) :
    Ignores r x s fun s => storeText (t s) c b m n s := by
  rcases Nat.lt_or_ge n ((t s).length + 1) with h | h
  · simp only [Ignores, ht, storeText_of_short h]; rfl
  · simp only [Ignores, ht, storeText_of_fits h]; rfl

theorem loadText {a : VIdx} {t : State → List Byte} (b : SIdx) (ha : a ≠ r) (ht : t (s.setV r x) = t s) :
    Ignores r x s fun s => loadText (t s) a b s := by
  cases hv : valid (t s) with
  | false => simp only [Ignores, ht, loadText_of_invalid hv]; rfl
  | true =>
    rcases Nat.lt_or_ge Config.cap (cnt (t s)) with h | h
    · simp only [Ignores, ht, loadText_of_long hv h]; rfl
    · simp only [Ignores, ht, loadText_of_valid hv h, State.setV_comm s ha.symm]; rfl

end Ignores

/-- No command reads or writes a value register but those its row names (R34). -/
theorem exec_ignores {i : Instr} {r : VIdx} (hr : r ∉ i.vReads) (hw : r ∉ i.vWrites) (x : VReg) (s : State) :
    Ignores r x s (exec i) := by
  have get (a : VIdx) (ha : a ∈ i.vReads) : (s.setV r x).getV a = s.getV a :=
    s.getV_setV_ne x (ne_of_mem_of_not_mem ha hr)
  have put (a : VIdx) (ha : a ∈ i.vWrites) : a ≠ r := ne_of_mem_of_not_mem ha hw
  cases i with
  | halt => rfl
  | init a n => exact .writeV (put a (.head _)) rfl
  | grow a => exact .writeV (put a (.head _)) (by rw [get a (.head _)])
  | trim a => exact .complete (by rw [get a (.head _), State.setV_comm s (put a (.head _)).symm])
  | setb a k y =>
    have ha := get a (.head _)
    by_cases h : y < (s.getV a).len ∧ k ≤ 255
    · rw [Ignores, exec_setb_of_inRange h, exec_setb_of_inRange (by rwa [ha]), ha, State.setV_comm s (put a (.head _)).symm]
      rfl
    · rw [Ignores, exec_setb_of_not_inRange h, exec_setb_of_not_inRange (by rwa [ha])]
      rfl
  | getb a b y => exact .writeS b (by rw [get a (.head _)]) rfl
  | numb a b => exact .writeS b (by rw [get a (.head _)]) rfl
  | store a b m n => exact .inBuffer (.storeText _ b m n (by rw [get a (.head _)]))
  | b10st a b m n => exact .inBuffer (.storeText _ b m n (by rw [get a (.head _)]))
  | load a b m n => exact .inBuffer (.loadText b (put a (.head _)) rfl)
  | bufsz a b => exact .writeS b (by rw [get a (.head _)]) rfl
  | cmp a b c => exact .writeS b (by rw [get a (.head _), get c (.tail _ (.head _))]) rfl
  | lt a b c => exact .writeS b (by rw [get a (.head _), get c (.tail _ (.head _))]) rfl
  | le a b c => exact .writeS b (by rw [get a (.head _), get c (.tail _ (.head _))]) rfl
  | eq a b c => exact .writeS b (by rw [get a (.head _), get c (.tail _ (.head _))]) rfl
  | clone a c =>
    exact .unlessAlias (.complete (by rw [get c (.head _), State.setV_comm s (put a (.head _)).symm]))
  | add a c =>
    exact .unlessAlias (.writeV (put a (.head _)) (by rw [get a (.head _), get c (.tail _ (.head _))]))
  | addb a y => exact .writeV (put a (.head _)) (by rw [get a (.head _)])
  | inc a => exact .writeV (put a (.head _)) (by rw [get a (.head _)])
  | bshi a => exact .writeV (put a (.head _)) (by rw [get a (.head _)])
  | bshd a b =>
    exact .writeS b (by rw [get a (.head _)]) (by rw [get a (.head _), State.setV_comm s (put a (.head _)).symm])
  | mbshi a y => exact .writeV (put a (.head _)) (by rw [get a (.head _)])
  | mbshd a y => exact .complete (by rw [get a (.head _), State.setV_comm s (put a (.head _)).symm])
  | sub a c =>
    exact .unlessAlias (.subtract (put a (.head _)) (by rw [get a (.head _)]) (by rw [get c (.tail _ (.head _))]))
  | dec a => exact .subtract (put a (.head _)) (by rw [get a (.head _)]) rfl
  | mul a c =>
    exact .unlessAlias (.writeV (put a (.head _)) (by rw [get a (.head _), get c (.tail _ (.head _))]))
  | div a b c d =>
    have hc := get c (.head _)
    have hd := get d (.tail _ (.head _))
    exact .unlessAlias (.unlessZero (by rw [hd])
      (.writeTwo (put a (.head _)) (put b (.tail _ (.head _))) (by rw [hc, hd]) (by rw [hc, hd])))
  | mod b c d =>
    have hc := get c (.head _)
    have hd := get d (.tail _ (.head _))
    exact .unlessAlias (.unlessZero (by rw [hd]) (.writeV (put b (.head _)) (by rw [hc, hd])))
  | sqrt a c => exact .unlessAlias (.writeV (put a (.head _)) (by rw [get c (.head _)]))

/-- The frame of a command, whatever it does: what its row does not name it leaves as it was. -/
theorem Did.frame {i : Instr} {s t : State} (h : Did i s (.next t)) :
    (∀ r, r ∉ i.vWrites → t.getV r = s.getV r) ∧ (∀ b, b ∉ i.sWrites → t.getS b = s.getS b) ∧
    (i.writesText = false → t.tb = s.tb) ∧ t.cm = s.cm ∧ t.cmDraw = s.cmDraw ∧ t.tbDraw = s.tbDraw ∧
    t.draws = s.draws ∧ t.turns = s.turns ∧ t.hostData = s.hostData := by
  cases h with
  | faulted c _ => exact ⟨fun _ _ => rfl, fun _ _ => rfl, fun _ => rfl, rfl, rfl, rfl, rfl, rfl, rfl⟩
  | halted _ => exact ⟨fun _ _ => rfl, fun _ _ => rfl, fun _ => rfl, rfl, rfl, rfl, rfl, rfl, rfl⟩
  | completed t _ w => exact ⟨w.v, w.sreg, w.tb, w.cm, w.cmDraw, w.tbDraw, w.draws, w.turns, w.hostData⟩

theorem State.cmWord_congr {s t : State} (hcm : t.cm = s.cm) (hdraw : t.cmDraw = s.cmDraw) (k : Nat) :
    t.cmWord k = s.cmWord k := by
  rw [State.cmWord, State.cmWord, hcm, hdraw]

theorem State.tbByte_congr {s t : State} (htb : t.tb = s.tb) (hdraw : t.tbDraw = s.tbDraw) (a : Nat) :
    t.tbByte a = s.tbByte a := by
  rw [State.tbByte, State.tbByte, htb, hdraw]

end Sys2Proof.Machine
end

section
/-! PROOF. The frame of every command, and that the registers outside its row do not matter to it (R34, R36, R71). -/

namespace Sys2Proof.Machine

/-- Settles O15: the frame of each of a command's outcomes. -/
theorem commandsWriteOnlyWhatTheirRowsName : Obligations.CommandsWriteOnlyWhatTheirRowsName := by
  unfold Obligations.CommandsWriteOnlyWhatTheirRowsName
  intro i s t h
  obtain ⟨hv, hs, htb, hcm, hcmDraw, htbDraw, hrest⟩ := (h ▸ exec_did i s : Did i s (.next t)).frame
  exact ⟨hv, hs, fun hi => State.tbByte_congr (htb hi) htbDraw, State.cmWord_congr hcm hcmDraw, hcm, hcmDraw, htbDraw, hrest⟩

/-- Settles O16: each shared operation ignores the register, so each command does. -/
theorem unreadRegistersDoNotMatter : Obligations.UnreadRegistersDoNotMatter := by
  unfold Obligations.UnreadRegistersDoNotMatter
  intro i s t r x hr hw h
  rw [exec_ignores hr hw x s, h, onNext]

end Sys2Proof.Machine
end

section
/-! SUPPORT. From trimmed registers to trimmed registers (R33), rule by rule for the shared operations: a fault, HALT and the PC
touch no register, so only the register written counts. -/

namespace Sys2Proof.Machine

/-- Where the outcome is a next state, every value register in it is trimmed. -/
def LeavesTrimmed (k : Result) : Prop := ∀ t, k = .next t → t.allTrimmed

namespace LeavesTrimmed
variable {s t : State}

theorem complete (ht : t.allTrimmed) : LeavesTrimmed (complete t) := by
  intro u h
  cases h
  exact ht

theorem raise (hs : s.allTrimmed) (c : Cause) : LeavesTrimmed (raise c s) := by
  intro u h
  cases h
  exact hs

theorem writeV (hs : s.allTrimmed) {a : VIdx} {r : Option VReg} (hr : ∀ x, r = some x → x.trimmed) :
    LeavesTrimmed (writeV a r s) := by
  cases r with
  | none => exact raise hs _
  | some x => exact complete (allTrimmed_setV hs a (hr x rfl))

theorem unlessAlias (hs : s.allTrimmed) {p : Prop} [Decidable p] {k : Result} (hk : LeavesTrimmed k) :
    LeavesTrimmed (unlessAlias p s k) := by
  unfold Machine.unlessAlias
  split
  · exact raise hs _
  · exact hk

theorem unlessZero (hs : s.allTrimmed) {d : Nat} {k : Result} (hk : LeavesTrimmed k) : LeavesTrimmed (unlessZero d s k) := by
  unfold Machine.unlessZero
  split
  · exact raise hs _
  · exact hk

theorem inBuffer (hs : s.allTrimmed) {x y : Nat} {k : Result} (hk : LeavesTrimmed k) : LeavesTrimmed (inBuffer x y s k) := by
  unfold Machine.inBuffer
  split
  · exact raise hs _
  · exact hk

theorem subtract (hs : s.allTrimmed) {a : VIdx} {x y : Nat} : LeavesTrimmed (subtract a x y s) := by
  unfold Machine.subtract
  split
  · exact raise hs _
  · exact writeV hs fun _ => norm_trimmed

theorem writeTwo (hs : s.allTrimmed) {a b : VIdx} {x y : Nat} : LeavesTrimmed (writeTwo a b (norm x) (norm y) s) := by
  unfold Machine.writeTwo
  split
  · next hq hr => exact complete (allTrimmed_setV (allTrimmed_setV hs a (norm_trimmed hq)) b (norm_trimmed hr))
  · exact raise hs _

theorem storeText (hs : s.allTrimmed) {t : List Byte} {c : Byte} {b : SIdx} {x y : Nat} :
    LeavesTrimmed (storeText t c b x y s) := by
  unfold Machine.storeText
  split
  · exact complete hs
  · exact complete hs

theorem loadText (hs : s.allTrimmed) {t : List Byte} {a : VIdx} {b : SIdx} : LeavesTrimmed (loadText t a b s) := by
  unfold Machine.loadText
  split
  · exact complete hs
  · split
    · exact raise hs _
    · exact complete (allTrimmed_setV hs a (VReg.trimmed_trim _))

end LeavesTrimmed

/-- No command but INIT, GROW and SETB makes a trimmed register untrimmed (R33, R140). -/
theorem exec_leavesTrimmed {i : Instr} (hw : i.wellFormed = true) (hi : i.mayUntrim = false) {s : State}
    (hs : s.allTrimmed) : LeavesTrimmed (exec i s) := by
  cases i with
  | init _ _ | grow _ | setb _ _ _ => cases hi
  | halt => intro t h; cases h; exact hs
  | getb _ _ _ | numb _ _ | bufsz _ _ | cmp _ _ _ | lt _ _ _ | le _ _ _ | eq _ _ _ => exact .complete hs
  | store _ _ _ _ | b10st _ _ _ _ => exact .inBuffer hs (.storeText hs)
  | load _ _ _ _ => exact .inBuffer hs (.loadText hs)
  | trim a => exact .complete (allTrimmed_setV hs a (VReg.trimmed_trim _))
  | clone a c => exact .unlessAlias hs (.complete (allTrimmed_setV hs a (hs c)))
  | add a c => exact .unlessAlias hs (.writeV hs fun _ => VReg.plus_trimmed (hs a) ((VReg.trimmed_iff _).mp (hs c)))
  | addb a y => exact .writeV hs fun _ => VReg.plus_trimmed (hs a) (byteLen_eq_tlen (lt_of_fitsByte hw))
  | inc a => exact .writeV hs fun _ => VReg.plus_trimmed (hs a) (byteLen_eq_tlen (by decide))
  | bshi a | mbshi a _ => exact .writeV hs fun _ => VReg.shiftUp_trimmed (hs a)
  | bshd a _ | mbshd a _ => exact .complete (allTrimmed_setV hs a (VReg.shiftDown_trimmed _ _))
  | sub _ _ => exact .unlessAlias hs (.subtract hs)
  | dec _ => exact .subtract hs
  | mul _ _ | sqrt _ _ => exact .unlessAlias hs (.writeV hs fun _ => norm_trimmed)
  | div _ _ _ _ => exact .unlessAlias hs (.unlessZero hs (.writeTwo hs))
  | mod _ _ _ => exact .unlessAlias hs (.unlessZero hs (.writeV hs fun _ => norm_trimmed))

end Sys2Proof.Machine
end

section
/-! PROOF. Only INIT, GROW and SETB can make a trimmed register untrimmed (R33, R140). -/

namespace Sys2Proof.Machine

/-- Settles O18: each command writes trimmed registers or none. -/
theorem onlyStorageCommandsUntrim : Obligations.OnlyStorageCommandsUntrim := by
  unfold Obligations.OnlyStorageCommandsUntrim
  exact fun i s t hw hi hs h => exec_leavesTrimmed hw hi hs t h

end Sys2Proof.Machine
end

section
/-! SUPPORT. Which fault a command takes (R300, R310): the cause its outcome shows, computed by one equation per shared operation,
and which results need more than CAP bytes. -/

namespace Sys2Proof.Machine

/-- The cause an outcome shows, where it is a state with STATE = FAULTED. -/
def causeOf : Result → Option Cause
  | .next t => if t.seq = .faulted then some t.cause else none
  | _ => none

/-- The fault of a result that may exceed CAP (R302). -/
def overCap (r : Option VReg) : Option Cause := if r = none then some .capacityExceeded else none

@[simp] theorem causeOf_enterFault (s : State) (c : Cause) : causeOf (.next (s.enterFault c)) = some c := rfl

theorem causeOf_of_not_faulted {t : State} (h : t.seq ≠ .faulted) : causeOf (.next t) = none := if_neg h

/-- A command of a RUNNING sequencer raises a fault just where its outcome shows the cause: it has then written nothing else. -/
theorem faultsWith_iff {i : Instr} {s : State} (hrun : s.seq = .running) (c : Cause) :
    faultsWith c i s ↔ causeOf (exec i s) = some c := by
  constructor
  · intro h
    rw [show exec i s = .next (s.enterFault c) from h, causeOf_enterFault]
  · intro h
    have hdid := exec_did i s
    rw [faultsWith]
    generalize exec i s = k at h hdid ⊢
    cases hdid with
    | faulted c' _ => rw [causeOf_enterFault, Option.some.injEq] at h; rw [h]; rfl
    | halted _ => cases h
    | completed t _ w =>
      rw [causeOf_of_not_faulted (by simp [w.seq, hrun])] at h
      cases h

section Causes
variable {s : State}

@[simp] theorem causeOf_unlessAlias (p : Prop) [Decidable p] (k : Result) :
    causeOf (unlessAlias p s k) = if p then some .aliasViolation else causeOf k := by
  unfold unlessAlias
  split <;> rfl

@[simp] theorem causeOf_unlessZero (d : Nat) (k : Result) :
    causeOf (unlessZero d s k) = if d = 0 then some .divisionByZero else causeOf k := by
  unfold unlessZero
  split <;> rfl

@[simp] theorem causeOf_inBuffer (x y : Nat) (k : Result) :
    causeOf (inBuffer x y s k) = if Config.tbSize < x + y then some .bufferRange else causeOf k := by
  unfold inBuffer
  split <;> rfl

variable (hrun : s.seq = .running)
include hrun

theorem causeOf_complete : causeOf (complete s) = none := causeOf_of_not_faulted (by simp [hrun])

theorem causeOf_writeS (b : SIdx) (x : Scalar) : causeOf (writeS b x s) = none := causeOf_of_not_faulted (by simp [hrun])

theorem causeOf_writeV (a : VIdx) (r : Option VReg) : causeOf (writeV a r s) = overCap r := by
  cases r with
  | none => rfl
  | some x => exact causeOf_of_not_faulted (by simp [hrun])

theorem causeOf_writeTwo (a b : VIdx) (x y : Nat) :
    causeOf (writeTwo a b (norm x) (norm y) s) = if norm x = none then some .capacityExceeded else overCap (norm y) := by
  cases norm x with
  | none => rfl
  | some q =>
    cases norm y with
    | none => rfl
    | some r => exact causeOf_of_not_faulted (by simp [hrun])

theorem causeOf_subtract (a : VIdx) (x y : Nat) :
    causeOf (subtract a x y s) = if x < y then some .underflow else overCap (norm (x - y)) := by
  unfold subtract
  split
  · rfl
  · exact causeOf_writeV hrun a _

theorem causeOf_storeText (t : List Byte) (c : Byte) (b : SIdx) (x y : Nat) : causeOf (storeText t c b x y s) = none := by
  unfold storeText
  split
  · exact causeOf_writeS hrun b _
  · exact causeOf_writeS (by exact hrun) b _

theorem causeOf_loadText (t : List Byte) (a : VIdx) (b : SIdx) :
    causeOf (loadText t a b s) = if valid t = true ∧ Config.cap < cnt t then some .capacityExceeded else none := by
  unfold loadText
  split
  · next hv => rw [causeOf_writeS hrun, if_neg (by simp [hv])]
  · next hv =>
    split
    · next hc => rw [if_pos ⟨by simpa using hv, hc⟩]; rfl
    · next hc => rw [causeOf_writeS (by exact hrun), if_neg (by simp [hc])]

end Causes

/-- The fault each command takes, if any: the first of its checks that fails, in the order of R290 and R310. -/
def faultOf (s : State) : Instr → Option Cause
  | .init _ n => if Config.cap < n then some .capacityExceeded else none
  | .grow a => if Config.cap < (s.getV a).len + 1 then some .capacityExceeded else none
  | .store _ _ x y | .b10st _ _ x y => if Config.tbSize < x + y then some .bufferRange else none
  | .load _ _ x y =>
    if Config.tbSize < x + y then some .bufferRange
    else if valid (s.memRead x y) = true ∧ Config.cap < cnt (s.memRead x y) then some .capacityExceeded else none
  | .clone a c => if a = c then some .aliasViolation else none
  | .add a c => if a = c then some .aliasViolation else overCap ((s.getV a).plus (s.getV c).len (s.getV c).val)
  | .addb a y => overCap ((s.getV a).plus (byteLen y) y)
  | .inc a => overCap ((s.getV a).plus (byteLen 1) 1)
  | .bshi a => overCap ((s.getV a).shiftUp 1)
  | .mbshi a y => overCap ((s.getV a).shiftUp y)
  | .sub a c =>
    if a = c then some .aliasViolation
    else if (s.getV a).val < (s.getV c).val then some .underflow else overCap (norm ((s.getV a).val - (s.getV c).val))
  | .dec a => if (s.getV a).val < 1 then some .underflow else overCap (norm ((s.getV a).val - 1))
  | .mul a c => if a = c then some .aliasViolation else overCap (norm ((s.getV a).val * (s.getV c).val))
  | .div a b c d =>
    if a = b ∨ a = c ∨ a = d ∨ b = c ∨ b = d then some .aliasViolation
    else if (s.getV d).val = 0 then some .divisionByZero
    else if norm ((s.getV c).val / (s.getV d).val) = none then some .capacityExceeded
    else overCap (norm ((s.getV c).val % (s.getV d).val))
  | .mod b c d =>
    if b = c ∨ b = d then some .aliasViolation
    else if (s.getV d).val = 0 then some .divisionByZero else overCap (norm ((s.getV c).val % (s.getV d).val))
  | .sqrt a c => if a = c then some .aliasViolation else overCap (norm (csqrt (s.getV c).val))
  | .halt | .trim _ | .setb _ _ _ | .getb _ _ _ | .numb _ _ | .bufsz _ _ | .cmp _ _ _ | .lt _ _ _ | .le _ _ _ | .eq _ _ _
  | .bshd _ _ | .mbshd _ _ => none

/-- The table is what the commands do. -/
theorem causeOf_exec (i : Instr) {s : State} (hrun : s.seq = .running) : causeOf (exec i s) = faultOf s i := by
  cases i with
  | halt => rfl
  | init a n =>
    rcases Nat.lt_or_ge Config.cap n with h | h
    · rw [exec_init_of_lt h, causeOf_enterFault, faultOf, if_pos h]
    · rw [exec_init_of_le h, faultOf, if_neg (Nat.not_lt.mpr h)]
      exact causeOf_complete (s := s.setV a _) hrun
  | grow a =>
    rcases Nat.lt_or_ge Config.cap ((s.getV a).len + 1) with h | h
    · rw [exec_grow_of_lt h, causeOf_enterFault, faultOf, if_pos h]
    · rw [exec_grow_of_le h, faultOf, if_neg (Nat.not_lt.mpr h)]
      exact causeOf_complete (s := s.setV a _) hrun
  | setb a k y =>
    by_cases h : y < (s.getV a).len ∧ k ≤ 255
    · rw [exec_setb_of_inRange h]; exact causeOf_complete (s := s.setV a _) hrun
    · rw [exec_setb_of_not_inRange h]; exact causeOf_complete hrun
  | trim a | mbshd a _ => exact causeOf_complete (s := s.setV a _) hrun
  | bshd a b => exact causeOf_writeS (s := s.setV a _) hrun b _
  | getb _ b _ | numb _ b | bufsz _ b | cmp _ b _ | lt _ b _ | le _ b _ | eq _ b _ => exact causeOf_writeS hrun b _
  | store a b x y | b10st a b x y => exact (causeOf_inBuffer x y _).trans (by rw [causeOf_storeText hrun]; rfl)
  | load a b x y => exact (causeOf_inBuffer x y _).trans (by rw [causeOf_loadText hrun]; rfl)
  | clone a c => exact (causeOf_unlessAlias _ _).trans (by rw [causeOf_complete (s := s.setV a _) hrun]; rfl)
  | addb a _ | inc a | bshi a | mbshi a _ => exact causeOf_writeV hrun a _
  | add a c | mul a c | sqrt a c => exact (causeOf_unlessAlias _ _).trans (by rw [causeOf_writeV hrun]; rfl)
  | sub a c => exact (causeOf_unlessAlias _ _).trans (by rw [causeOf_subtract hrun]; rfl)
  | dec a => exact causeOf_subtract hrun a _ _
  | div a b c d =>
    exact (causeOf_unlessAlias _ _).trans (by rw [causeOf_unlessZero, causeOf_writeTwo hrun]; rfl)
  | mod b c d => exact (causeOf_unlessAlias _ _).trans (by rw [causeOf_unlessZero, causeOf_writeV hrun]; rfl)

theorem faultsWith_iff_faultOf (i : Instr) {s : State} (hrun : s.seq = .running) (c : Cause) :
    faultsWith c i s ↔ faultOf s i = some c := by
  rw [faultsWith_iff hrun, causeOf_exec i hrun]

@[simp] theorem overCap_eq_some_iff {r : Option VReg} {c : Cause} : overCap r = some c ↔ r = none ∧ c = .capacityExceeded := by
  cases r <;> simp [overCap, eq_comm]

/-- A sum of operands within CAP exceeds CAP where the longer is full and the value needs one byte more (R200, R302). -/
theorem VReg.plus_eq_none_iff {r : VReg} {n : Nat} (hr : r.len ≤ Config.cap) (hn : n ≤ Config.cap) (y : Nat) :
    r.plus n y = none ↔ max r.len n = Config.cap ∧ 256 ^ Config.cap ≤ r.val + y := by
  have hmax : max r.len n ≤ Config.cap := Nat.max_le.mpr ⟨hr, hn⟩
  by_cases hfull : max r.len n = Config.cap
  · rw [VReg.plus, hfull, if_pos (Nat.lt_succ_self _), ite_eq_right_iff]
    simp
  · have hroom : ¬ Config.cap < max r.len n + 1 := by omega
    rw [VReg.plus, if_neg hroom]
    split <;> simp [hfull]

/-- A byte as an operand is never longer than CAP, nor as long (R201). -/
theorem byteLen_lt_cap (y : Nat) : byteLen y < Config.cap := by
  unfold byteLen
  split <;> decide

theorem VReg.plus_byte_eq_none_iff {r : VReg} (hr : r.len ≤ Config.cap) (y : Nat) :
    r.plus (byteLen y) y = none ↔ r.len = Config.cap ∧ 256 ^ Config.cap ≤ r.val + y := by
  have hy := byteLen_lt_cap y
  rw [VReg.plus_eq_none_iff hr (Nat.le_of_lt hy), show max r.len (byteLen y) = Config.cap ↔ r.len = Config.cap by omega]

theorem VReg.shiftUp_eq_none_iff {r : VReg} {n : Nat} :
    r.shiftUp n = none ↔ r.val ≠ 0 ∧ n ≠ 0 ∧ Config.cap < r.len + n := by
  unfold VReg.shiftUp
  split
  · next h => simpa using fun h0 hn => absurd h (not_or.mpr ⟨h0, hn⟩)
  · next h =>
    obtain ⟨h0, hn⟩ := not_or.mp h
    simp [h0, hn]

theorem norm_eq_none_iff {x : Nat} : norm x = none ↔ 256 ^ Config.cap ≤ x := by
  rw [norm, ite_eq_left_iff]
  simp only [reduceCtorEq, imp_false, not_not, ← Nat.not_le, tlen_le_iff]

/-- A result that is at most the value of a register within CAP does not exceed CAP. -/
theorem norm_ne_none {r : VReg} (hr : r.len ≤ Config.cap) {x : Nat} (hx : x ≤ r.val) : norm x ≠ none := by
  rw [ne_eq, norm_eq_none_iff, Nat.not_le]
  exact VReg.lt_pow_cap_of_le_val hr hx

end Sys2Proof.Machine
end

section
/-! PROOF. Each fault is raised exactly where its rule says (R302, R303, R304, R305, R308): the table of first failing checks,
read command by command. -/

namespace Sys2Proof.Machine

/-- Settles O19: the check of coinciding fields is the first of every command that has one. -/
theorem aliasViolationExactly : Obligations.AliasViolationExactly := by
  unfold Obligations.AliasViolationExactly
  intro i s hrun
  rw [faultsWith_iff_faultOf i hrun]
  cases i with
  | clone a c | add a c | sub a c | mul a c | sqrt a c =>
    simp [faultOf, ite_eq_iff, eq_comm (a := a)]
  | div a b c d => by_cases h : a = b ∨ a = c ∨ a = d ∨ b = c ∨ b = d <;> simp [faultOf, ite_eq_iff, h]
  | mod b c d => by_cases h : b = c ∨ b = d <;> simp [faultOf, ite_eq_iff, h]
  | _ => simp [faultOf, ite_eq_iff]

/-- Settles O20: the commands with a buffer region check it first. -/
theorem bufferRangeExactly : Obligations.BufferRangeExactly := by
  unfold Obligations.BufferRangeExactly
  intro i s hrun
  rw [faultsWith_iff_faultOf i hrun]
  cases i <;> simp [faultOf, ite_eq_iff]

/-- Settles O21: SUB and DEC alone subtract, after SUB's check of coinciding fields. -/
theorem underflowExactly : Obligations.UnderflowExactly := by
  unfold Obligations.UnderflowExactly
  intro i s hrun
  rw [faultsWith_iff_faultOf i hrun]
  cases i <;> simp [faultOf, ite_eq_iff]

/-- Settles O22: DIV and MOD alone divide, after their checks of coinciding fields. -/
theorem divisionByZeroExactly : Obligations.DivisionByZeroExactly := by
  unfold Obligations.DivisionByZeroExactly
  intro i s hrun
  rw [faultsWith_iff_faultOf i hrun]
  cases i with
  | div a b c d | mod b c d => simp [faultOf, ite_eq_iff, Instr.aliased, and_assoc]
  | _ => simp [faultOf, ite_eq_iff]

/-- Settles O23: the nine commands whose result can exceed CAP; SUB, DEC, DIV, MOD and SQRT give at most the value of an operand,
which is within CAP. -/
theorem capacityExceededExactly : Obligations.CapacityExceededExactly := by
  unfold Obligations.CapacityExceededExactly
  intro i s hrun hfit _
  rw [faultsWith_iff_faultOf i hrun]
  cases i with
  | grow a =>
    have hfull : Config.cap < (s.getV a).len + 1 ↔ (s.getV a).len = Config.cap := by have := hfit a; omega
    simp [faultOf, hfull]
  | add a c => simp [faultOf, ite_eq_iff, VReg.plus_eq_none_iff (hfit a) (hfit c)]
  | addb a y | inc a => simp [faultOf, VReg.plus_byte_eq_none_iff (hfit a)]
  | bshi a | mbshi a y => simp [faultOf, VReg.shiftUp_eq_none_iff]
  | mul a c => simp [faultOf, ite_eq_iff, norm_eq_none_iff]
  | sub a c => simp [faultOf, ite_eq_iff, norm_ne_none (hfit a) (Nat.sub_le _ _)]
  | dec a => simp [faultOf, ite_eq_iff, norm_ne_none (hfit a) (Nat.sub_le _ _)]
  | div a b c d =>
    simp [faultOf, ite_eq_iff, norm_ne_none (hfit c) (Nat.div_le_self _ _),
      norm_ne_none (hfit c) (Nat.mod_le _ _)]
  | mod b c d => simp [faultOf, ite_eq_iff, norm_ne_none (hfit c) (Nat.mod_le _ _)]
  | sqrt a c => simp [faultOf, ite_eq_iff, norm_ne_none (hfit c) (csqrt_le_self _)]
  | _ => simp [faultOf, ite_eq_iff]

end Sys2Proof.Machine
end

section
/-! SUPPORT. What the informative algorithms compute, by the recursion of each: the rows of schoolbook multiplication (R241), the
bits of the restoring division (R253), and Newton's iteration, which is Mathlib's `Nat.sqrt.iter` (R271). -/

namespace Sys2Proof.Machine

/-- One digit and its carry make up the number they were split from. -/
theorem valOf_ofNat_cons (x : Nat) (bs : List Byte) : valOf (BitVec.ofNat 8 x :: bs) = x % 256 + 256 * valOf bs := by
  rw [valOf_cons, BitVec.toNat_ofNat]

/-- A byte times a byte plus a carry byte is two bytes (R241). -/
theorem mul_add_carry_lt {b m carry : Nat} (hb : b < 256) (hm : m < 256) (hc : carry < 256) : b * m + carry < 65536 := by
  have : b * m ≤ 255 * 255 := Nat.mul_le_mul (by omega) (by omega)
  omega

/-- A row of the multiplication: every byte times `m`, and the carry that came in. -/
theorem valOf_mulRow {m : Nat} (hm : m < 256) (bs : List Byte) {carry : Nat} (hc : carry < 256) :
    valOf (mulRow m bs carry) = valOf bs * m + carry := by
  induction bs generalizing carry with
  | nil => simp [mulRow, Nat.mod_eq_of_lt hc]
  | cons b bs ih =>
    have hlt := mul_add_carry_lt b.isLt hm hc
    rw [mulRow, valOf_ofNat_cons, ih (by omega), valOf_cons, Nat.add_mul, Nat.mul_assoc]
    omega

/-- Two byte lists and the carry that came in, added: a carry is at most 1, for 255 + 255 + 1 is below 512. -/
theorem valOf_addRow (xs ys : List Byte) {carry : Nat} (hc : carry ≤ 1) :
    valOf (addRow xs ys carry) = valOf xs + valOf ys + carry := by
  induction xs, ys, carry using addRow.induct with
  | case1 carry =>
    rw [addRow, valOf_ofNat_cons, valOf_nil]
    omega
  | case2 x xs carry ih | case3 x xs carry ih =>
    have hx := x.isLt
    rw [addRow, valOf_ofNat_cons, ih (by omega), valOf_cons, valOf_nil]
    omega
  | case4 x xs y ys carry ih =>
    have hx := x.isLt
    have hy := y.isLt
    rw [addRow, valOf_ofNat_cons, ih (by omega), valOf_cons, valOf_cons]
    omega

theorem valOf_mulEngine (ms acc : List Byte) : valOf (mulEngine ms acc) = valOf ms * valOf acc := by
  induction ms with
  | nil => simp [mulEngine]
  | cons m ms ih =>
    rw [mulEngine, valOf_addRow _ _ (by omega), valOf_mulRow m.isLt _ (by omega), valOf_cons, ih, valOf_cons]
    simp
    ring

/-- Bringing down the next bit of `n`. -/
theorem two_mul_div_add_bit (n k : Nat) : 2 * (n / 2 ^ (k + 1)) + n / 2 ^ k % 2 = n / 2 ^ k := by
  rw [Nat.pow_succ, ← Nat.div_div_eq_div_mul, Nat.div_add_mod]

/-- One step of the division: the remainder doubled with the next bit, less `d` where `d` goes into it (R253). -/
theorem divMod_two_mul_add (high : Nat) {d bit : Nat} (hd : 0 < d) (hbit : bit < 2) :
    (if d ≤ 2 * (high % d) + bit then (2 * (high % d) + bit - d, 2 * (high / d) + 1)
      else (2 * (high % d) + bit, 2 * (high / d))) = ((2 * high + bit) % d, (2 * high + bit) / d) := by
  have hsum := Nat.mod_add_div high d
  have hrem := Nat.mod_lt high hd
  split
  · next hle =>
    have hq : d * (2 * (high / d) + 1) = 2 * (d * (high / d)) + d := by ring
    obtain ⟨hdiv, hmod⟩ := (Nat.div_mod_unique (a := 2 * high + bit) (c := 2 * (high % d) + bit - d) hd).mpr
      ⟨by rw [hq]; omega, by omega⟩
    rw [hdiv, hmod]
  · next hlt =>
    have hq : d * (2 * (high / d)) = 2 * (d * (high / d)) := by ring
    obtain ⟨hdiv, hmod⟩ := (Nat.div_mod_unique (a := 2 * high + bit) (c := 2 * (high % d) + bit) hd).mpr
      ⟨by rw [hq]; omega, by omega⟩
    rw [hdiv, hmod]

/-- The loop invariant: from remainder and quotient of the bits above `k`, the loop gives those of the whole number (R253). -/
theorem divLoop_eq (n : Nat) {d : Nat} (hd : 0 < d) (k : Nat) :
    divLoop n d k (n / 2 ^ k % d, n / 2 ^ k / d) = (n % d, n / d) := by
  induction k with
  | zero => simp [divLoop]
  | succ k ih =>
    have hstep := divMod_two_mul_add (n / 2 ^ (k + 1)) hd (Nat.mod_lt (n / 2 ^ k) Nat.two_pos)
    rw [two_mul_div_add_bit] at hstep
    rw [divLoop, ← ih, ← hstep]
    split <;> rfl

theorem divEngine_eq (num : VReg) {d : Nat} (hd : 0 < d) : divEngine num d = (num.val / d, num.val % d) := by
  have hzero : num.val / 2 ^ (8 * num.len) = 0 := Nat.div_eq_of_lt (by rw [Nat.pow_mul]; exact num.val_lt)
  have hloop := divLoop_eq (n := num.val) hd (8 * num.len)
  rw [hzero, Nat.zero_mod, Nat.zero_div] at hloop
  rw [divEngine, hloop]

/-- A step of Newton's iteration never goes below the floor root: the mean of x and n / x is at least it (R271). -/
theorem sqrt_le_newtonStep (n : Nat) {x : Nat} (hx : 0 < x) : Nat.sqrt n ≤ (x + n / x) / 2 := by
  rw [← Nat.lt_succ_iff, Nat.sqrt_lt]
  have hn : n < x * (n / x + 1) := Nat.lt_mul_div_succ n hx
  have hmean : x + (n / x + 1) ≤ 2 * ((x + n / x) / 2 + 1) := by omega
  have hsq := four_mul_le_sq_add x (n / x + 1)
  have hle := Nat.pow_le_pow_left hmean 2
  simp only [Nat.succ_eq_add_one]
  nlinarith

/-- Where a step no longer lowers the estimate, its square is at most n. -/
theorem mul_self_le_of_le_newtonStep {n x : Nat} (hx : 0 < x) (h : x ≤ (x + n / x) / 2) : x * x ≤ n :=
  (Nat.le_div_iff_mul_le hx).mp (by omega)

/-- From any estimate not below the floor root, with as many steps as the estimate, the loop gives the floor root. -/
theorem newtonLoop_eq {n : Nat} (hn : 0 < n) (fuel : Nat) {x : Nat} (hroot : Nat.sqrt n ≤ x) (hfuel : x ≤ fuel) :
    newtonLoop n fuel x = Nat.sqrt n := by
  have hpos := Nat.sqrt_pos.mpr hn
  induction fuel generalizing x with
  | zero => omega
  | succ fuel ih =>
    rw [newtonLoop]
    split
    · next hstop => exact Nat.le_antisymm (Nat.le_sqrt.mpr (mul_self_le_of_le_newtonStep (by omega) hstop)) hroot
    · next hgo => exact ih (sqrt_le_newtonStep n (by omega)) (by omega)

/-- The upward adjustment of the floor root is the ceiling root (R271). -/
theorem csqrt_eq_adjusted (n : Nat) :
    csqrt n = if Nat.sqrt n * Nat.sqrt n < n then Nat.sqrt n + 1 else Nat.sqrt n := by
  split
  · next h =>
    have hle : csqrt n ≤ Nat.sqrt n + 1 := (csqrt_le_iff n _).mpr (Nat.le_of_lt (Nat.lt_succ_sqrt n))
    have hgt := mt (csqrt_le_iff n (Nat.sqrt n)).mp (Nat.not_le.mpr h)
    omega
  · next h =>
    have hsq : Nat.sqrt n * Nat.sqrt n = n := Nat.le_antisymm (Nat.sqrt_le n) (Nat.not_lt.mp h)
    calc csqrt n = csqrt (Nat.sqrt n * Nat.sqrt n) := by rw [hsq]
      _ = Nat.sqrt n := csqrt_mul_self _

/-- The first estimate, 256^ceil(len/2), is not below the root of any value of that length (R271). -/
theorem VReg.sqrt_val_le_start (num : VReg) : Nat.sqrt num.val ≤ 256 ^ ((num.len + 1) / 2) := by
  refine Nat.le_of_lt (Nat.sqrt_lt.mpr ?_)
  calc num.val < 256 ^ num.len := num.val_lt
    _ ≤ 256 ^ ((num.len + 1) / 2 + (num.len + 1) / 2) := Nat.pow_le_pow_right (by decide) (by omega)
    _ = 256 ^ ((num.len + 1) / 2) * 256 ^ ((num.len + 1) / 2) := Nat.pow_add ..

theorem sqrtEngine_eq (num : VReg) : sqrtEngine num = csqrt num.val := by
  unfold sqrtEngine
  split
  · next h => rw [h]; rfl
  · next h => simp only [newtonLoop_eq (Nat.pos_of_ne_zero h) _ num.sqrt_val_le_start (Nat.le_refl _), csqrt_eq_adjusted]

end Sys2Proof.Machine
end

section
/-! PROOF. The informative algorithms give the commands' results (R241, R253, R271). -/

namespace Sys2Proof.Machine

/-- Settles O49: the value of each row, and the bound of two bytes. -/
theorem schoolbookMultiplicationIsExact : Obligations.SchoolbookMultiplicationIsExact := by
  unfold Obligations.SchoolbookMultiplicationIsExact
  refine ⟨valOf_mulEngine, fun b m carry hc => ?_⟩
  have hlt := mul_add_carry_lt b.isLt m.isLt hc
  exact ⟨hlt, Nat.div_lt_of_lt_mul hlt⟩

/-- Settles O50: the loop over all the bits of the numerator, none of which are above its 8·len. -/
theorem divisionEngineIsExact : Obligations.DivisionEngineIsExact := by
  unfold Obligations.DivisionEngineIsExact
  exact fun num d => divEngine_eq num

/-- Settles O51: the loop stops at the floor root, which the adjustment takes to the ceiling root. -/
theorem sqrtEngineIsExact : Obligations.SqrtEngineIsExact := by
  unfold Obligations.SqrtEngineIsExact
  exact sqrtEngine_eq

end Sys2Proof.Machine
end

section
/-! SUPPORT. The offset map by ranges (R320), and what a write does to each kind of register (R321, R330). -/

namespace Sys2Proof.Machine

/-- The registers the host reads only, and the offsets that name none: a write of them is ignored (R321). -/
def HostReg.ignoresWrites : HostReg → Bool
  | .id | .caps | .status | .cause | .scalar _ | .unmapped => true
  | .ctrl | .pc | .cm _ | .tb _ => false

theorem State.hostWriteReg_of_ignoresWrites (s : State) (data : Word) {r : HostReg} (h : r.ignoresWrites = true) :
    s.hostWriteReg data r = s := by
  cases r with
  | ctrl | pc | cm _ | tb _ => cases h
  | _ => rfl

theorem State.whenStopped_of_running {s : State} (h : s.seq = .running) (t : State) : s.whenStopped t = s := if_pos h

theorem State.whenStopped_of_stopped {s : State} (h : s.seq ≠ .running) (t : State) : s.whenStopped t = t := if_neg h

/-- While RUNNING a write of a hidden register is ignored (R330). -/
theorem State.hostWriteReg_of_hidden {s : State} (hrun : s.seq = .running) (data : Word) {r : HostReg}
    (h : r.hiddenWhileRunning = true) : s.hostWriteReg data r = s := by
  cases r with
  | pc | cm _ | tb _ => exact State.whenStopped_of_running hrun _
  | scalar _ => rfl
  | _ => cases h

/-- Bits [1:0] of an offset are ignored (R77). -/
theorem hostReg_add_of_lt {e : Nat} (h : e < 4) (o : Nat) : hostReg (4 * o + e) = hostReg (4 * o) := by
  rw [hostReg, hostReg, show (4 * o + e) / 4 = 4 * o / 4 by omega]

/-- The offsets between and above the windows name nothing (R320, R321). -/
theorem hostReg_of_unmapped {o : Nat} (h0 : ¬ o < 0x0018) (h1 : ¬ (0x0040 ≤ o ∧ o < 0x0080))
    (h2 : ¬ (0x1000 ≤ o ∧ o < 0x1400)) (h3 : ¬ (0x2000 ≤ o ∧ o < 0x2100)) : hostReg o = .unmapped := by
  unfold hostReg hostRegAligned
  split_ifs <;> first | rfl | omega

theorem ignoresWrites_of_offset {o : Nat} (h : o < 0x0008 ∨ (0x000C ≤ o ∧ o < 0x0014) ∨ (0x0040 ≤ o ∧ o < 0x0080)) :
    (hostReg o).ignoresWrites = true := by
  unfold hostReg hostRegAligned
  split_ifs <;> first | rfl | omega

/-- The offsets of PC and of the three windows name registers that R330 hides. -/
theorem hidden_of_offset {o : Nat} (h : o / 4 * 4 = 0x0014 ∨ (0x0040 ≤ o ∧ o < 0x0080) ∨ (0x1000 ≤ o ∧ o < 0x1400) ∨
    (0x2000 ≤ o ∧ o < 0x2100)) : (hostReg o).hiddenWhileRunning = true := by
  unfold hostReg hostRegAligned
  split_ifs <;> first | rfl | omega

section Offsets
variable {s : State} {o : Nat} {r : HostReg}

theorem hostReads_of_reg (hreg : hostReg o = r) (h : r.hiddenWhileRunning = false ∨ s.seq ≠ .running) :
    hostReads s o (s.regWord r) := by
  subst hreg
  exact hostReads_of_seen h

theorem hostWrites_of_eq {t : State} {data : Word} (hreg : hostReg o = r) (h : s.hostWriteReg data r = t) :
    hostWrites s o data t := by
  subst hreg h
  exact hostWrites_of_reg s o data

end Offsets

/-- A host read of an offset R330 hides, taken as the next turn. -/
theorem step_hostRead_of_hidden {s : State} (hrun : s.seq = .running) {o : Nat}
    (h : (hostReg o).hiddenWhileRunning = true) :
    step { s with turns := [.hostRead (Config.hostBase + o)] } =
      .next { s with turns := [], hostData := Config.drawnRead s.draws, draws := s.draws + 1 } := by
  rw [step_of_turn (t := .hostRead (Config.hostBase + o)) (ts := []) rfl]
  simp only [takeTurn, State.hostRead_add]
  rw [State.hostReadReg_of_hidden h (by exact hrun)]
  rfl

/-- A host read of any address, taken as the next turn, leaves all but the word the host gets and the number of the next draw. -/
theorem step_hostRead_frame (s : State) (addr : Nat) : ∃ data n, step { s with turns := [.hostRead addr] } =
    .next { s with turns := [], hostData := data, draws := n } := by
  rw [step_of_turn (t := .hostRead addr) (ts := []) rfl]
  simp only [takeTurn, State.hostRead]
  split
  · exact ⟨s.hostData, s.draws, rfl⟩
  · next o _ =>
    obtain ⟨data, n, he, _⟩ := State.hostReadReg_frame (State.afterTurn { s with turns := [.hostRead addr] }) (hostReg o)
    exact ⟨data, n, by rw [he]; rfl⟩

theorem length_wordBytes (w : Word) : (wordBytes w).length = 4 := rfl

/-- The four bytes of a word by index (R76). -/
theorem getD_wordBytes (w : Word) {j : Nat} (h : j < 4) : (wordBytes w).getD j 0#8 = w.extractLsb' (8 * j) 8 := by
  interval_cases j <;> rfl

/-- TB_k after a word is written to it (R329). -/
theorem State.tbByte_memWrite_wordBytes (s : State) (k : Nat) (w : Word) {j : Nat} (h : j < 4) :
    (s.memWrite (4 * k) (wordBytes w)).tbByte (4 * k + j) = w.extractLsb' (8 * j) 8 := by
  rw [State.tbByte_memWrite, length_wordBytes, if_pos (by omega), Nat.add_sub_cancel_left, getD_wordBytes w h]

theorem State.tbByte_memWrite_of_outside (s : State) {a n : Nat} {t : List Byte} (h : n < a ∨ a + t.length ≤ n) :
    (s.memWrite a t).tbByte n = s.tbByte n := by
  rw [State.tbByte_memWrite, if_neg (by omega)]

section Ctrl
variable (s : State) {data : Word}

theorem hostWrites_ctrl (data : Word) : hostWrites s 0x0008 data (s.writeCtrl data) := hostWrites_of_reg s 0x0008 data

theorem State.writeCtrl_of_srst (h : data.getLsbD 1 = true) : s.writeCtrl data = s.softReset := if_pos h

theorem State.writeCtrl_of_start (h1 : data.getLsbD 1 = false) (h0 : data.getLsbD 0 = true) : s.writeCtrl data = s.start := by
  rw [State.writeCtrl, if_neg (Bool.eq_false_iff.mp h1), if_pos h0]

theorem State.writeCtrl_of_neither (h1 : data.getLsbD 1 = false) (h0 : data.getLsbD 0 = false) : s.writeCtrl data = s := by
  rw [State.writeCtrl, if_neg (Bool.eq_false_iff.mp h1), if_neg (Bool.eq_false_iff.mp h0)]

end Ctrl

end Sys2Proof.Machine
end

section
/-! PROOF. The host register block: CTRL, the constants, the windows, and what RUNNING hides (R320 to R330). -/

namespace Sys2Proof.Machine

/-- Settles O54: the cases of a write of CTRL, SRST before START. -/
theorem ctrlStartsTheSequencer : Obligations.CtrlStartsTheSequencer := by
  unfold Obligations.CtrlStartsTheSequencer
  intro s data
  have hwrite := hostWrites_ctrl s data
  refine ⟨hostReads_of_seen (.inl rfl), fun h1 h0 hs => ?_, fun h1 h0 hs => ?_, fun h1 h0 => ?_, fun h1 => ?_⟩
  · rwa [State.writeCtrl_of_start s h1 h0, State.start_of_stopped hs] at hwrite
  · rwa [State.writeCtrl_of_start s h1 h0, State.start_of_running hs] at hwrite
  · rwa [State.writeCtrl_of_neither s h1 h0] at hwrite
  · rwa [State.writeCtrl_of_srst s h1] at hwrite

/-- Settles O55: none of the four registers is hidden while RUNNING; the codes by the cases of STATE and CAUSE. -/
theorem identityAndStatusReads : Obligations.IdentityAndStatusReads := by
  unfold Obligations.IdentityAndStatusReads
  intro s
  have hid : hostReads s 0x0000 idWord := hostReads_of_seen (.inl rfl)
  have hcaps : hostReads s 0x0004 capsWord := hostReads_of_seen (.inl rfl)
  have hstatus (q : SeqState) (h : s.seq = q) : hostReads s 0x000C (q.code.setWidth 32) :=
    h ▸ hostReads_of_seen (.inl rfl)
  have hcause (c : Cause) (h : s.cause = c) : hostReads s 0x0010 (c.code.setWidth 32) :=
    h ▸ hostReads_of_seen (.inl rfl)
  rw [show capsWord = 0x0088441E by decide] at hcaps
  exact ⟨hid, hcaps, hstatus _ rfl, hcause _ rfl, hstatus .idle, hstatus .running, hstatus .halted, hstatus .faulted,
    hcause .none, hcause .capacityExceeded, hcause .underflow, hcause .divisionByZero, hcause .aliasViolation,
    hcause .illegalCommand, hcause .bufferRange, hcause .fetchRange, by cases s.cause <;> decide⟩

/-- Settles O56: the windows by the offset map; a write outside RUNNING is the write of the cell, read back by index. -/
theorem hostWindowsReadAndWriteTheState : Obligations.HostWindowsReadAndWriteTheState := by
  unfold Obligations.HostWindowsReadAndWriteTheState
  refine ⟨fun s hs => ?reads, fun s data hs => ?writes, fun s data i => ?scalars, fun s data hrun => ?runningPc⟩
  case reads =>
    exact ⟨hostReads_of_reg (r := .pc) rfl (.inr hs), fun i => hostReads_of_reg (hostReg_scalar i) (.inr hs),
      fun k hk => hostReads_of_reg (hostReg_cm hk) (.inr hs), fun k hk => hostReads_of_reg (hostReg_tb hk) (.inr hs)⟩
  case writes =>
    have stopped {t : State} : s.whenStopped t = t := State.whenStopped_of_stopped hs t
    refine ⟨hostWrites_of_eq (r := .pc) rfl stopped, fun k hk => ⟨_, hostWrites_of_eq (hostReg_cm hk) stopped, ?_⟩,
      fun k hk => ⟨_, hostWrites_of_eq (hostReg_tb hk) stopped, ?_, ?_⟩⟩
    · exact fun j => s.cmWord_setCm k j data
    · exact fun j hj => s.tbByte_memWrite_wordBytes k data hj
    · exact fun a ha => s.tbByte_memWrite_of_outside ha
  case scalars => exact hostWrites_of_eq (hostReg_scalar i) rfl
  case runningPc => exact hostWrites_of_eq (r := .pc) rfl (State.whenStopped_of_running hrun _)

/-- Settles O57: what R330 hides, read and written. -/
theorem runningHidesTheState : Obligations.RunningHidesTheState := by
  unfold Obligations.RunningHidesTheState
  intro s o hrun ho
  have hidden := hidden_of_offset ho
  exact ⟨step_hostRead_of_hidden hrun hidden, fun data => hostWrites_of_eq rfl (State.hostWriteReg_of_hidden hrun data hidden)⟩

/-- Settles O59: the offset map by ranges, and the frame of a read. -/
theorem unmappedAndReadOnlyOffsets : Obligations.UnmappedAndReadOnlyOffsets := by
  unfold Obligations.UnmappedAndReadOnlyOffsets
  refine ⟨fun o e he => hostReg_add_of_lt he o, fun s o h0 h1 h2 h3 => ?_, fun s o data ho => ?_, step_hostRead_frame⟩
  · have hreg := hostReg_of_unmapped h0 h1 h2 h3
    exact ⟨hostReads_of_reg hreg (.inl rfl), fun data => hostWrites_of_eq hreg rfl⟩
  · exact hostWrites_of_eq rfl (s.hostWriteReg_of_ignoresWrites data (ignoresWrites_of_offset ho))

end Sys2Proof.Machine
end

section
/-! SUPPORT. The host's accesses and the value registers: but for a soft reset, an access neither reads nor writes one. -/

namespace Sys2Proof.Machine

section
variable (s : State) (i : VIdx) (x : VReg)

theorem State.regWord_setV (r : HostReg) : (s.setV i x).regWord r = s.regWord r := by cases r <;> rfl

theorem State.hostReadReg_setV (r : HostReg) : (s.setV i x).hostReadReg r = (s.hostReadReg r).setV i x := by
  by_cases h : r.hiddenWhileRunning = true ∧ s.seq = .running
  · obtain ⟨hr, hrun⟩ := h
    rw [State.hostReadReg_of_hidden hr (by exact hrun), State.hostReadReg_of_hidden hr hrun]
    rfl
  · have hseen : r.hiddenWhileRunning = false ∨ s.seq ≠ .running := by simpa [or_iff_not_imp_left] using h
    rw [State.hostReadReg_of_seen (by exact hseen), State.hostReadReg_of_seen hseen, State.regWord_setV]
    rfl

theorem State.hostRead_setV (addr : Nat) : (s.setV i x).hostRead addr = (s.hostRead addr).setV i x := by
  unfold State.hostRead
  split
  · rfl
  · exact s.hostReadReg_setV i x _

theorem State.start_setV : (s.setV i x).start = s.start.setV i x := by
  by_cases h : s.seq = .running
  · rw [State.start_of_running h, State.start_of_running (by exact h)]
  · rw [State.start_of_stopped h, State.start_of_stopped (by exact h)]
    rfl

theorem State.whenStopped_setV (t : State) : (s.setV i x).whenStopped (t.setV i x) = (s.whenStopped t).setV i x := by
  by_cases h : s.seq = .running
  · rw [State.whenStopped_of_running h, State.whenStopped_of_running (by exact h)]
  · rw [State.whenStopped_of_stopped h, State.whenStopped_of_stopped (by exact h)]

/-- A write that is no soft reset, the value register set before or after it. -/
theorem State.hostWriteReg_setV {data : Word} {r : HostReg} (h : r = .ctrl → data.getLsbD 1 = false) :
    (s.setV i x).hostWriteReg data r = (s.hostWriteReg data r).setV i x := by
  cases r with
  | ctrl =>
    have h1 := h rfl
    cases h0 : data.getLsbD 0 with
    | true => simpa only [State.hostWriteReg, State.writeCtrl_of_start _ h1 h0] using s.start_setV i x
    | false => simp only [State.hostWriteReg, State.writeCtrl_of_neither _ h1 h0]
  | pc => exact s.whenStopped_setV i x { s with pc := data.setWidth 9 }
  | cm k => exact s.whenStopped_setV i x (s.setCm k data)
  | tb k => exact s.whenStopped_setV i x (s.memWrite (4 * k) (wordBytes data))
  | _ => rfl

end

theorem State.hostRead_getV (s : State) (addr : Nat) (j : VIdx) : (s.hostRead addr).getV j = s.getV j := by
  unfold State.hostRead
  split
  · rfl
  · next o _ =>
    obtain ⟨_, _, he, _⟩ := s.hostReadReg_frame (hostReg o)
    rw [he]
    rfl

theorem State.whenStopped_getV {s t : State} {j : VIdx} (h : t.getV j = s.getV j) : (s.whenStopped t).getV j = s.getV j := by
  unfold State.whenStopped
  split
  · rfl
  · exact h

theorem State.start_getV (s : State) (j : VIdx) : s.start.getV j = s.getV j := by
  unfold State.start
  split <;> rfl

/-- A write that is no soft reset leaves the value registers as they were. -/
theorem State.hostWriteReg_getV (s : State) {data : Word} {r : HostReg} (h : r = .ctrl → data.getLsbD 1 = false) (j : VIdx) :
    (s.hostWriteReg data r).getV j = s.getV j := by
  cases r with
  | ctrl =>
    have h1 := h rfl
    cases h0 : data.getLsbD 0 with
    | true => rw [State.hostWriteReg, State.writeCtrl_of_start _ h1 h0, State.start_getV]
    | false => rw [State.hostWriteReg, State.writeCtrl_of_neither _ h1 h0]
  | pc | cm _ | tb _ => exact State.whenStopped_getV rfl
  | _ => rfl

end Sys2Proof.Machine
end

section
/-! SUPPORT. What the two resets leave (R340, R341). -/

namespace Sys2Proof.Machine

theorem State.reset_getV (i : VIdx) : State.reset.getV i = ⟨[]⟩ := Vector.getElem_replicate ..

theorem State.reset_getS (i : SIdx) : State.reset.getS i = 0 := Vector.getElem_replicate ..

/-- A soft reset outside RUNNING keeps TB (R341). -/
theorem State.softReset_tbByte_of_stopped {s : State} (h : s.seq ≠ .running) (a : Nat) : s.softReset.tbByte a = s.tbByte a := by
  rw [State.softReset, if_neg h]
  rfl

/-- A soft reset while RUNNING leaves TB unspecified: all of it is drawn afresh (R341). -/
theorem State.softReset_tbByte_of_running {s : State} (h : s.seq = .running) (a : Nat) :
    s.softReset.tbByte a = Config.drawnByte s.draws a := by
  rw [State.softReset, if_pos h]
  rfl

theorem State.le_softReset_draws (s : State) : s.draws ≤ s.softReset.draws := by
  unfold State.softReset
  split
  · exact Nat.le_succ _
  · exact Nat.le_refl _

/-- Whether it was RUNNING or not, a soft reset leaves the registers as after power-on, and keeps CM (R341). -/
theorem State.softReset_values (s : State) :
    (∀ i, s.softReset.getV i = ⟨[]⟩) ∧ (∀ i, s.softReset.getS i = 0) ∧ s.softReset.pc = 0 ∧ s.softReset.cause = .none ∧
    (∀ k, s.softReset.cmWord k = s.cmWord k) := by
  unfold State.softReset
  split <;> exact ⟨State.reset_getV, State.reset_getS, rfl, rfl, fun _ => rfl⟩

end Sys2Proof.Machine
end

section
/-! PROOF. The host and the value registers, and the two resets (R320 to R323, R340, R341). -/

namespace Sys2Proof.Machine

/-- Settles O58: each access, the register set before or after it, and its frame. -/
theorem hostNeverReachesValueRegisters : Obligations.HostNeverReachesValueRegisters := by
  unfold Obligations.HostNeverReachesValueRegisters
  intro s i x
  refine ⟨fun addr => ⟨_, rfl, congrArg Host.Outcome.next (s.hostRead_setV i x addr), s.hostRead_getV addr⟩,
    fun addr data h => ⟨_, rfl, congrArg Host.Outcome.next ?_, fun j => ?_⟩⟩
  · unfold State.hostWrite
    split
    · rfl
    · next o ho => exact s.hostWriteReg_setV i x (h o ho)
  · unfold State.hostWrite
    split
    · rfl
    · next o ho => exact s.hostWriteReg_getV (h o ho) j

/-- Settles O52: the power-on turn, and `State.reset`, whose sequencer takes no step. -/
theorem powerOnResetValues : Obligations.PowerOnResetValues := by
  unfold Obligations.PowerOnResetValues
  refine ⟨fun s ts h => ⟨s.afterTurn.powerOn, step_of_turn h, State.reset_getV, State.reset_getS, rfl, rfl, rfl, fun _ => rfl,
    fun _ => rfl, rfl, congrArg List.tail h⟩, State.reset_getV, State.reset_getS, rfl, rfl, rfl, fun _ => rfl, fun _ => rfl, ?_⟩
  exact (step_of_sequencerMoves (.inl rfl)).trans (sequencerTurn_of_stopped (by decide))

/-- Settles O53: a write of CTRL with SRST is a soft reset, by its values inside and outside RUNNING. -/
theorem softResetValues : Obligations.SoftResetValues := by
  unfold Obligations.SoftResetValues
  intro s data h
  obtain ⟨hv, hs, hpc, hcause, hcm⟩ := s.softReset_values
  exact ⟨s.softReset, hostWrites_of_eq (r := .ctrl) rfl (s.writeCtrl_of_srst h), hv, hs, hpc, s.softReset_seq, hcause, hcm,
    State.softReset_tbByte_of_stopped, State.softReset_tbByte_of_running, s.le_softReset_draws⟩

end Sys2Proof.Machine
end
